-- ==== Sys2Proof/Word.lean ====
section
/-! DEFINITION. The value types: the 64-bit cell, operand, port number and pc (Int64, R7), and the byte of port 0 and of a
colour component. -/

namespace Sys2Proof

/-- `Int64` (R7): 64 bits, read as signed two's complement by `BitVec.toInt`. -/
abbrev Word := BitVec 64

/-- A byte of the character streams (R27) or of a colour component (R24). -/
abbrev Byte := BitVec 8

/-- The sentinel -1, all 64 bits ones (R6, R7). -/
abbrev sentinel : Word := -1

end Sys2Proof
end

