-- ==== Sys2Proof/Config.lean ====
section
/-! DEFINITION. What an implementation fixes (R5) and the free values: opaque constants without a body, so that nothing can
be proved about the value the spec leaves open. The parameters that are plain data are the structure `Config`, which State
carries and no step changes (log 2). -/

namespace Sys2Proof

/-- The three components of a colour (R24). -/
inductive Channel where
  | red
  | green
  | blue
deriving DecidableEq, Repr

/-- A colour (r, g, b), each component 0..255 (R24). -/
structure Colour where
  r : Byte
  g : Byte
  b : Byte
deriving DecidableEq, Repr, Inhabited

/-- The six keys the controller can ask about (R97). -/
inductive Key where
  | up
  | down
  | left
  | right
  | enter
  | escape
deriving DecidableEq, Repr

/-- Which of the six keys `isKeyHeld` answers true for (R25). -/
structure KeySet where
  up : Bool
  down : Bool
  left : Bool
  right : Bool
  enter : Bool
  escape : Bool
deriving DecidableEq, Repr

/-- EOF_POLICY (R99, D16): what port-0 input does at the end of the character input stream. -/
inductive EofPolicy where
  /-- The default: end of stream counts as "cannot be read", IOError(0). -/
  | ioError
  /-- A deployment that returns a fixed value (D16 names -1 and 0). -/
  | returns (v : Word)
  /-- A deployment that waits for ever. -/
  | waits
deriving DecidableEq, Repr

/-- PIX_NARROW (R101, D18): how a port-1 output value outside 0..255 becomes a byte. -/
inductive PixNarrow where
  /-- The default: the low 8 bits. -/
  | lowByte
  /-- Any other narrowing: a free value outside 0..255. -/
  | other
deriving DecidableEq, Repr

/-- GRADIENT (R102, D19): how a colour component becomes an integer. -/
inductive Gradient where
  /-- The default: floor of the exact rational value. -/
  | floor
  /-- Any other rounding: within 1 of the default, exact at the two end points (R102, R103). -/
  | other
deriving DecidableEq, Repr

/-- The parameters of R5 that are plain data. None of them changes while the machine runs. -/
structure Config where
  /-- IMAGE: the reset contents of Memory; SIZE is its length. -/
  image : List Word
  rasterW : Nat
  rasterH : Nat
  accent : Colour
  eofPolicy : EofPolicy
  pixNarrow : PixNarrow
  gradient : Gradient
  hasDisplay : Bool
  /-- The exit code the host reports for a FAULTED stop (R134, D28). -/
  faultExit : Nat
deriving DecidableEq, Repr

/-- The ranges R5 and R134 give: SIZE <= 2^63 - 1, RASTER_W and RASTER_H at least 1, a non-zero exit code. -/
def Config.wf (c : Config) : Bool :=
  decide (c.image.length < 2 ^ 63) && decide (0 < c.rasterW) && decide (0 < c.rasterH) && decide (c.faultExit ≠ 0)

/-- The configuration of `State.reset`: no program loaded (SIZE 0), and for the open parameters the values the test vectors
of 95_test_vectors.md take by convention, with the spec's default policies. DESIGN CHOICE, log 2. -/
def Config.default : Config where
  image := []
  rasterW := 2
  rasterH := 2
  accent := ⟨255, 128, 0⟩
  eofPolicy := .ioError
  pixNarrow := .lowByte
  gradient := .floor
  hasDisplay := true
  faultExit := 1

/-- No key held. -/
def KeySet.noneHeld : KeySet := ⟨false, false, false, false, false, false⟩

/-- KEY_SELECT (R105, D21), a FREE VALUE: the position, among the keys held, of the one whose code is returned when
several are held. DESIGN CHOICE, log 13. -/
opaque Config.keySelect : KeySet → Nat

/-- PIX_NARROW outside 0..255 in a deployment that does not take the low byte, a FREE VALUE. DESIGN CHOICE, log 11. -/
opaque Config.pixNarrowOther : Word → Byte

/-- GRADIENT in a deployment that does not take the floor, a FREE VALUE: the component's distance from the default, by the
remainder mod 3 (one below, equal, one above), for a channel, its accent component and the byte. DESIGN CHOICE, log 12. -/
opaque Config.gradientNudge : Channel → Byte → Byte → Nat

/-- The sample of the random source when none is laid ready, a FREE VALUE by the draw counter (U7). DESIGN CHOICE, log 14. -/
opaque Config.freeRandom : Nat → BitVec 32

/-- Whether the byte reached `char_out` when `CharPut` fails, a FREE VALUE by the draw counter (U10, D27). DESIGN CHOICE,
log 15. -/
opaque Config.charPutLanded : Nat → Bool

/-- What a raster element that nothing has painted holds, a FREE VALUE by the draw the controller's initialisation took,
the element's x and its y (U6, R24). DESIGN CHOICE, log 16. -/
opaque Config.freeRaster : Nat → Nat → Nat → Colour

end Sys2Proof
end

