-- ==== Sys2Proof/Syntax.lean ====
section
/-! DEFINITION. The four instructions (R52, R60), one constructor per row of spec/opcode_table.json, with the source's tagged
names for the operands (R51, R58), and the ports an operand c can name (R98). -/

namespace Sys2Proof

/-- An instruction, decoded. The sentinel operand of IN, OUT and HALT is not kept; HALT keeps its two ignored operands, so
that encoding gives back the triple that was decoded. -/
inductive Instr where
  /-- IN (R73): `mem[dest] <- PortIn(port)`. -/
  | input (dest port : Word)
  /-- OUT (R76): `PortOut(port, mem[src])`. -/
  | output (src port : Word)
  /-- HALT (R81); `a` and `b` are ignored. -/
  | halt (a b : Word)
  /-- SUBLEQ (R85): `mem[a] <- mem[a] - mem[b]`, branch to `c` when the result is not positive. -/
  | subleq (a b c : Word)
deriving DecidableEq, Repr

/-- The ports of the fixed port table (R98): three with a function, and every other number. -/
inductive Port where
  /-- Port 0: the character stream. -/
  | chars
  /-- Port 1: keys in, pixels out. -/
  | keysPixel
  /-- Port 2: random sample in, present and poll out. -/
  | randomPresent
  /-- Every other port number: reads 0, ignores writes (R108). -/
  | unlisted
deriving DecidableEq, Repr

end Sys2Proof
end

