-- ==== Sys2Proof/Machine/State.lean ====
section
/-! DEFINITION. The state of the block and of its environment as plain data (R13), the reasons a step can stop outside the
spec's own stop record, and the state after reset (R29). -/

namespace Sys2Proof.Machine

/-- Memory (R14, R32): `size` cells of 64 bits, numbered from 0. Only the cells that hold something other than 0 are listed,
by rising index; a cell inside `size` that is not listed holds 0 (log 1). -/
structure Memory where
  size : Nat
  cells : List (Nat × Word)
deriving DecidableEq, Repr

/-- `status` of the stop record (R19). -/
inductive Status where
  | running
  | halted
  | faulted
deriving DecidableEq, Repr

/-- `cause` of the stop record (R20). -/
inductive Cause where
  | none
  | haltInstr
  | haltBounds
  | indexError
  | ioError
  | displayInitError
deriving DecidableEq, Repr

/-- The stop record (R19): whether and why the machine stopped, out of the program's reach (R21). -/
structure StopRecord where
  status : Status
  cause : Cause
  info : Word
deriving DecidableEq, Repr

/-- The accumulated raster (R24): the painted elements, listed by rising position `y * RASTER_W + x`; an element not listed
has not been painted since initialisation and shows the free value of draw `draw` (log 16). -/
structure Raster where
  painted : List (Nat × Colour)
  draw : Nat
deriving DecidableEq, Repr

/-- The I/O controller's own state (R23 to R25): the raster cursor, the raster, the close-request latch. -/
structure Controller where
  curX : Nat
  curY : Nat
  raster : Raster
  quit : Bool
deriving DecidableEq, Repr

/-- The condition of the character input stream behind the bytes already supplied (R97, R99). -/
inductive InCond where
  /-- More bytes may come: with none supplied, port-0 input waits. -/
  | ready
  /-- The stream has ended: with none supplied, EOF_POLICY applies. -/
  | ended
  /-- The stream cannot be read: `CharGet` fails (log 24). -/
  | failed
deriving DecidableEq, Repr

/-- An input event pending at the display, taken in at the next present-and-poll (R107). -/
inductive DisplayEvent where
  | key (k : Key) (down : Bool)
  | closeRequest
deriving DecidableEq, Repr

/-- A transaction with the display (R97), as the environment sees it. Questions that tell the display nothing
(`isKeyHeld`) are not recorded (log 28). -/
inductive DisplayCall where
  /-- `init(title)`, its title dropped: the spec does not give it (R97, N14). DESIGN CHOICE, log 30. -/
  | init
  | setPixel (x y : Nat) (colour : Colour)
  | present (frame : Raster)
  | cleanup
deriving DecidableEq, Repr

/-- The environment (R13, R25 to R27, R97) as plain data: what it has supplied, the answers it stands ready to give, and
what it has been told (log 6). -/
structure Env where
  /-- `char_in`: bytes supplied and not yet consumed, the next one first (R27). -/
  charIn : List Byte
  charInCond : InCond
  /-- `char_out`: the bytes emitted so far, the first one first (R27). -/
  charOut : List Byte
  /-- Whether `CharPut` fails (R100). -/
  charOutFails : Bool
  /-- What `isKeyHeld` answers, the display's cached key state (R25, R105). -/
  keys : KeySet
  /-- The display's pending input events, oldest first (R107). -/
  pending : List DisplayEvent
  /-- Whether `init(title)` fails (R110). -/
  initFails : Bool
  /-- Samples the random source has ready, the next one first; with none ready a sample is a free value (log 14). -/
  randoms : List (BitVec 32)
  /-- The transactions with the display so far, the first one first (R71, R97). -/
  displayCalls : List DisplayCall
deriving DecidableEq, Repr

/-- The whole machine: configuration (fixed, R28), Memory, pc, stop record, controller, environment (R13), and the counter
of free values drawn, the model's own (log 16). -/
structure State where
  cfg : Config
  mem : Memory
  pc : Word
  stop : StopRecord
  io : Controller
  env : Env
  draws : Nat
deriving DecidableEq, Repr

/-- What stops a step other than the spec's own stop record. (A fault of the spec, IndexError, IOError or DisplayInitError,
is a next state with the stop record set, R130, log 4.) -/
inductive Fault where
  /-- Raised by OUT on port 1 when the raster cursor lies outside the raster, where `raster[cur_y][cur_x]` does not exist
  (R23, R24). No state a run reaches has such a cursor (R30). SAFE: the model stops where the spec says nothing (log 25). -/
  | pixelOutsideRaster
deriving DecidableEq, Repr

/-- Why an instruction has no meaning in the model. -/
inductive Refusal where
  /-- Raised by an arm of `exec` for an instruction not modelled yet; no arm does. SAFE. -/
  | notModelled (mnemonic : String)
  /-- Raised by IN and OUT on ports 1 and 2 in a deployment without a display, of which the spec says that nothing may be
  assumed and that a model must refuse (R113, D30, U11). SAFE: the model stops where the spec gives no effect (log 17). -/
  | noDisplay
deriving DecidableEq, Repr

/-- `status = RUNNING`, cause NONE, info 0 (R20). -/
abbrev StopRecord.running : StopRecord := ⟨.running, .none, 0⟩

/-- An environment that has supplied nothing, whose streams and display work, and that has seen the display initialised.
DESIGN CHOICE, log 18. -/
def Env.initial : Env where
  charIn := []
  charInCond := .ready
  charOut := []
  charOutFails := false
  keys := KeySet.noneHeld
  pending := []
  initFails := false
  randoms := []
  displayCalls := [.init]

/-- The machine right after reset with no program loaded (R29): Memory is the empty image, pc is 0, the cursor is at the
origin, no close request; since SIZE < 3 the run check of reset has stopped it with HALT_BOUNDS (R141, R144). A program is
loaded from outside the machine (log 3). -/
def State.reset : State where
  cfg := Config.default
  mem := ⟨0, []⟩
  pc := 0
  stop := ⟨.halted, .haltBounds, 0⟩
  io := ⟨0, 0, ⟨[], 0⟩, false⟩
  env := Env.initial
  draws := 1

end Sys2Proof.Machine
end

