-- ==== Sys2Proof/Machine/Ops.lean ====
section
/-! DEFINITION. The named operations over Memory, pc and the stop record (R8): lists keyed by rising index, checked indices,
`stop` and `raise` (the one operation by which a fault is taken), and the run check. -/

namespace Sys2Proof.Machine

/-- The value listed at key `k`. -/
def cellsGet {α : Type} (k : Nat) : List (Nat × α) → Option α
  | [] => none
  | (j, v) :: rest => if k = j then some v else cellsGet k rest

/-- Lists `v` at key `k`, keeping the keys rising. -/
def cellsSet {α : Type} (k : Nat) (v : α) : List (Nat × α) → List (Nat × α)
  | [] => [(k, v)]
  | (j, w) :: rest =>
    if k < j then (k, v) :: (j, w) :: rest
    else if k = j then (k, v) :: rest
    else (j, w) :: cellsSet k v rest

/-- Takes key `k` off the list. -/
def cellsErase {α : Type} (k : Nat) : List (Nat × α) → List (Nat × α)
  | [] => []
  | (j, w) :: rest => if k = j then cellsErase k rest else (j, w) :: cellsErase k rest

/-- The keys rise strictly and all lie at or above `lo`. -/
def cellsRise {α : Type} : Nat → List (Nat × α) → Bool
  | _, [] => true
  | lo, (j, _) :: rest => decide (lo ≤ j) && cellsRise (j + 1) rest

/-- What a cell inside Memory that is not listed holds (log 1). -/
def Memory.unlisted : Word := 0

/-- `mem[i]`, the raw read of one cell (R8). -/
def Memory.read (m : Memory) (i : Nat) : Word := (cellsGet i m.cells).getD Memory.unlisted

/-- `mem[i] <- v`, the raw write of one cell (R8): a cell that holds what an unlisted one reads as is not listed. -/
def Memory.write (m : Memory) (i : Nat) (v : Word) : Memory :=
  ⟨m.size, if v = Memory.unlisted then cellsErase i m.cells else cellsSet i v m.cells⟩

/-- The canonical form: indices rise, lie inside Memory, and no listed cell holds what an unlisted one reads as. -/
def Memory.wf (m : Memory) : Bool :=
  cellsRise 0 m.cells && m.cells.all fun c => decide (c.1 < m.size) && c.2 != Memory.unlisted

/-- The listed cells of an image whose first value goes to index `i`. -/
def imageCells : Nat → List Word → List (Nat × Word)
  | _, [] => []
  | i, v :: rest => if v = Memory.unlisted then imageCells (i + 1) rest else (i, v) :: imageCells (i + 1) rest

/-- Memory as loaded: as many cells as the image has values, cell `i` holding value `i` (R29, R143). -/
def Memory.ofImage (image : List Word) : Memory := ⟨image.length, imageCells 0 image⟩

/-- `InRange(i)`: 0 <= i < SIZE on the signed value (R8, R41). -/
def Memory.inRange (m : Memory) (i : Word) : Bool := decide (0 ≤ i.toInt) && decide (i.toInt < m.size)

/-- `InRunRange(pc)`: 0 <= pc <= SIZE - 3 on the signed value (R63, the resolution of C1). -/
def Memory.inRunRange (m : Memory) (pc : Word) : Bool := decide (0 ≤ pc.toInt) && decide (pc.toInt + 3 ≤ m.size)

/-- The numeric code of a cause (R20). -/
def Cause.code : Cause → Nat
  | .none => 0
  | .haltInstr => 1
  | .haltBounds => 2
  | .indexError => 3
  | .ioError => 4
  | .displayInitError => 5

/-- `stop(k)`: normal termination; nothing but the stop record changes (R70). -/
def State.stopNormally (s : State) (k : Cause) : State := { s with stop := ⟨.halted, k, 0⟩ }

/-- `raise K(i)`: TAKING A FAULT (R130). The stop record says FAULTED, the cause and the qualifying value; pc stays at the
faulting instruction and Memory is as it was. There is no handler, no saved register (R131) and no return (R132): only
reset leaves this state. -/
def State.raise (s : State) (k : Cause) (info : Word) : State := { s with stop := ⟨.faulted, k, info⟩ }

/-- The run check (R64): outside the run range the machine stops normally, pc keeping its value. -/
def State.runCheck (s : State) : State :=
  if s.mem.inRunRange s.pc then s else s.stopNormally .haltBounds

/-- The pc update and the run check that end a step (R43 items 7 and 8). -/
def State.goTo (s : State) (target : Word) : State := State.runCheck { s with pc := target }

/-- The index of the next instruction in memory order: pc + 3 (R6, R15). -/
def State.nextPc (s : State) : Word := s.pc + 3

/-- `mem[i] <- v` on the state. -/
def State.writeCell (s : State) (i : Nat) (v : Word) : State := { s with mem := s.mem.write i v }

end Sys2Proof.Machine
end

