-- ==== Sys2Proof/Machine/Halt.lean ====
section
/-! DEFINITION. HALT (R81 to R84). -/

namespace Sys2Proof.Machine

/-- HALT (R81): `stop(HALT_INSTR)`. The operands are not used as indices and not checked; pc stays at the triple (D8); no
run check follows. -/
def execHalt (_a _b : Word) (s : State) : Host.Outcome State Fault Refusal := .next (s.stopNormally .haltInstr)

end Sys2Proof.Machine
end

