-- ==== Sys2Proof/Machine/Operands.lean ====
section
/-! DEFINITION. The operand forms (R51, R89): an operand used as a memory index, direct and absolute, and an operand used
as a port number. (A branch target is the operand value itself, R88; HALT's operands are ignored, R81.) -/

namespace Sys2Proof.Machine

/-- An operand used as a memory index: the cell it names, or nothing when it is outside `[0, SIZE)` (R41). -/
def indexOperand (m : Memory) (i : Word) : Option Nat := if m.inRange i then some i.toNat else none

/-- An operand used as a port number: all 64 bits are compared (R33, D15, log 20). -/
def portOperand (c : Word) : Port :=
  if c = 0 then .chars
  else if c = 1 then .keysPixel
  else if c = 2 then .randomPresent
  else .unlisted

end Sys2Proof.Machine
end

