-- ==== Sys2Proof/Machine/IoController.lean ====
section
/-! DEFINITION. The I/O controller (R93 to R114): the answers of the environment to its transactions, the gradient, the
raster cursor, the keys, and the two operations `PortIn` and `PortOut`. It never reads or writes Memory (R112). -/

namespace Sys2Proof.Machine

/-- How a port transaction ends. -/
inductive PortAnswer (α : Type) where
  /-- Done, with the value an input returns, in the state after it. -/
  | done (v : α) (s : State)
  /-- Not enabled: port-0 input waits (R72). -/
  | waits
  /-- IOError (R111), in the state the failed transaction leaves. -/
  | ioError (s : State)
  /-- A port of the display in a deployment without one (R113). -/
  | noDisplay
  /-- The raster cursor names no raster element (log 25). -/
  | noPixel
deriving DecidableEq, Repr

/-- What `CharGet` answers (R97). -/
inductive CharReply where
  | byte (k : Byte)
  | failure
  | endOfStream
  | notYet
deriving DecidableEq, Repr

/-- `CharGet()`: the next byte, or why there is none (R97, R99, log 24). -/
def charGet (env : Env) : CharReply :=
  match env.charInCond, env.charIn with
  | .failed, _ => .failure
  | _, k :: _ => .byte k
  | .ready, [] => .notYet
  | .ended, [] => .endOfStream

/-- Consumes the byte `charGet` answered with (R99). -/
def State.consumeChar (s : State) : State := { s with env := { s.env with charIn := s.env.charIn.tail } }

/-- Appends a byte to `char_out` (R27, R100). -/
def State.emitChar (s : State) (k : Byte) : State := { s with env := { s.env with charOut := s.env.charOut ++ [k] } }

/-- Counts one free value as drawn (log 16). -/
def State.countDraw (s : State) : State := { s with draws := s.draws + 1 }

/-- Port-0 input (R99): the byte, zero-extended; at the end of the stream, EOF_POLICY (log 10). -/
def port0In (s : State) : PortAnswer Word :=
  match charGet s.env with
  | .byte k => .done (k.setWidth 64) s.consumeChar
  | .failure => .ioError s
  | .notYet => .waits
  | .endOfStream =>
    match s.cfg.eofPolicy with
    | .ioError => .ioError s
    | .returns v => .done v s
    | .waits => .waits

/-- Whether a port value is a byte, as a signed 64-bit value (R100, R101). -/
def isByteValue (v : Word) : Bool := decide (0 ≤ v.toInt) && decide (v.toInt ≤ 255)

/-- A failed `CharPut`: whether the byte reached `char_out` is a free value (R123, U10, log 15). -/
def State.failedPut (s : State) (k : Byte) : State :=
  State.countDraw (if Config.charPutLanded s.draws then s.emitChar k else s)

/-- Port-0 output (R100): the byte is emitted and flushed; a value outside 0..255 is silently dropped. -/
def port0Out (v : Word) (s : State) : PortAnswer Unit :=
  if isByteValue v then
    if s.env.charOutFails then .ioError (s.failedPut (v.setWidth 8)) else .done () (s.emitChar (v.setWidth 8))
  else .done () s

/-- PIX_NARROW (R101): the identity on 0..255; outside, the low byte or, in another deployment, a free value (log 11). -/
def pixNarrow (cfg : Config) (v : Word) : Byte :=
  if isByteValue v then v.setWidth 8
  else match cfg.pixNarrow with
    | .lowByte => v.setWidth 8
    | .other => Config.pixNarrowOther v

/-- One component of the default gradient, the floor of the exact value: black to accent up to 127, accent to white from
128 (R102). -/
def gradientFloor (accent v : Nat) : Nat :=
  if v ≤ 127 then accent * (2 * v) / 255 else accent + (255 - accent) * (2 * v - 255) / 255

/-- Another rounding of a component: within 1 of the default, never outside 0..255, exact at the end points (R102, R103,
log 12). -/
def gradientOther (ch : Channel) (accent v : Byte) : Nat :=
  if v = 0 ∨ v = 255 then gradientFloor accent.toNat v.toNat
  else min 255 (gradientFloor accent.toNat v.toNat + Config.gradientNudge ch accent v % 3 - 1)

/-- One component of the colour of byte `v` (R102). -/
def component (cfg : Config) (ch : Channel) (accent v : Byte) : Byte :=
  BitVec.ofNat 8 (match cfg.gradient with
    | .floor => gradientFloor accent.toNat v.toNat
    | .other => gradientOther ch accent v)

/-- The colour of byte `v` on the 3-stop gradient of the accent colour (R102). -/
def colourOf (cfg : Config) (v : Byte) : Colour :=
  ⟨component cfg .red cfg.accent.r v, component cfg .green cfg.accent.g v, component cfg .blue cfg.accent.b v⟩

/-- The position of element (x, y) in the row-major raster (R104). -/
def rasterIndex (cfg : Config) (x y : Nat) : Nat := y * cfg.rasterW + x

/-- `raster[y][x]`: the colour painted there, or the free value of an element nothing has painted (R24, U6, log 16). -/
def Raster.read (cfg : Config) (r : Raster) (x y : Nat) : Colour :=
  (cellsGet (rasterIndex cfg x y) r.painted).getD (Config.freeRaster r.draw x y)

/-- `raster[y][x] <- col` (R104). -/
def Raster.paint (cfg : Config) (r : Raster) (x y : Nat) (col : Colour) : Raster :=
  ⟨cellsSet (rasterIndex cfg x y) col r.painted, r.draw⟩

/-- The canonical form of the painted elements: positions rise and lie inside the raster. -/
def Raster.wf (cfg : Config) (r : Raster) : Bool :=
  cellsRise 0 r.painted && r.painted.all fun c => decide (c.1 < cfg.rasterW * cfg.rasterH)

/-- The raster cursor names an element of the raster (R23, R30). -/
def cursorInRaster (cfg : Config) (io : Controller) : Bool := decide (io.curX < cfg.rasterW) && decide (io.curY < cfg.rasterH)

/-- The cursor one cell on (R104): right, at the end of a row to the next row, after the last row to the origin. -/
def advanceCursor (cfg : Config) (io : Controller) : Controller :=
  if io.curX + 1 = cfg.rasterW then
    if io.curY + 1 = cfg.rasterH then { io with curX := 0, curY := 0 } else { io with curX := 0, curY := io.curY + 1 }
  else { io with curX := io.curX + 1 }

/-- Records a transaction with the display (R97). -/
def State.callDisplay (s : State) (c : DisplayCall) : State :=
  { s with env := { s.env with displayCalls := s.env.displayCalls ++ [c] } }

/-- Paints the element at the cursor, before the cursor moves (R104). -/
def State.paintPixel (s : State) (col : Colour) : State :=
  State.callDisplay
    { s with io := advanceCursor s.cfg { s.io with raster := s.io.raster.paint s.cfg s.io.curX s.io.curY col } }
    (.setPixel s.io.curX s.io.curY col)

/-- Port-1 output (R104). -/
def port1Out (v : Word) (s : State) : PortAnswer Unit :=
  if cursorInRaster s.cfg s.io then .done () (s.paintPixel (colourOf s.cfg (pixNarrow s.cfg v))) else .noPixel

/-- `isKeyHeld(key)` (R97). -/
def isKeyHeld (ks : KeySet) : Key → Bool
  | .up => ks.up
  | .down => ks.down
  | .left => ks.left
  | .right => ks.right
  | .enter => ks.enter
  | .escape => ks.escape

/-- The key state with one key's answer changed. -/
def setKeyHeld (ks : KeySet) (k : Key) (held : Bool) : KeySet :=
  match k with
  | .up => { ks with up := held }
  | .down => { ks with down := held }
  | .left => { ks with left := held }
  | .right => { ks with right := held }
  | .enter => { ks with enter := held }
  | .escape => { ks with escape := held }

/-- The keys held (R105). -/
def keysHeld (ks : KeySet) : List Key := [Key.up, .down, .left, .right, .enter, .escape].filter (isKeyHeld ks)

/-- The fixed key codes (R6, R105). -/
def codeOfKey : Key → Word
  | .up => 128
  | .down => 129
  | .left => 130
  | .right => 131
  | .enter => 10
  | .escape => 27

/-- The code of a close request (R105). -/
def closeRequestCode : Word := 27

/-- The code of the key state: 0 with none held, the held key's code, and with several held the code of the one KEY_SELECT
picks, a free value (R105, D21, log 13). -/
def keyCode (ks : KeySet) : Word :=
  match keysHeld ks with
  | [] => 0
  | [k] => codeOfKey k
  | k :: more => codeOfKey ((k :: more).getD (Config.keySelect ks % (k :: more).length) k)

/-- Port-1 input (R105): a pending close request outranks the keys; no state changes. -/
def port1In (s : State) : PortAnswer Word :=
  .done (if s.io.quit then closeRequestCode else keyCode s.env.keys) s

/-- `Random32()`: the next sample laid ready, or a free value (U7, R106, log 14). -/
def random32 (s : State) : BitVec 32 × State :=
  match s.env.randoms with
  | r :: rest => (r, { s with env := { s.env with randoms := rest } })
  | [] => (Config.freeRandom s.draws, s.countDraw)

/-- Port-2 input (R106): the 32-bit pattern read as a signed number and widened (D17). -/
def port2In (s : State) : PortAnswer Word := .done ((random32 s).1.signExtend 64) (random32 s).2

/-- The display's answer to one pending event, taken in: a key change updates the cached key state (R105, R107, log 19). -/
def DisplayEvent.takeIn (ks : KeySet) : DisplayEvent → KeySet
  | .key k down => setKeyHeld ks k down
  | .closeRequest => ks

/-- `presentAndPollEvents()`: shows the raster, drains every pending event without waiting, and latches a close request
among them (R107). -/
def State.presentAndPoll (s : State) : State :=
  State.callDisplay
    { s with
      io := { s.io with quit := s.io.quit || s.env.pending.contains .closeRequest }
      env := { s.env with keys := s.env.pending.foldl DisplayEvent.takeIn s.env.keys, pending := [] } }
    (.present s.io.raster)

/-- Port-2 output (R107); the value written is not used. -/
def port2Out (s : State) : PortAnswer Unit := .done () s.presentAndPoll

/-- A port of the display, refused in a deployment without one (R113, D30, log 17). -/
def ifDisplay {α : Type} (s : State) (answer : PortAnswer α) : PortAnswer α :=
  if s.cfg.hasDisplay then answer else .noDisplay

/-- `PortIn(p)` (R94). -/
def portIn (p : Word) (s : State) : PortAnswer Word :=
  match portOperand p with
  | .chars => port0In s
  | .keysPixel => ifDisplay s (port1In s)
  | .randomPresent => ifDisplay s (port2In s)
  | .unlisted => .done 0 s

/-- `PortOut(p, v)` (R95). -/
def portOut (p v : Word) (s : State) : PortAnswer Unit :=
  match portOperand p with
  | .chars => port0Out v s
  | .keysPixel => ifDisplay s (port1Out v s)
  | .randomPresent => ifDisplay s (port2Out s)
  | .unlisted => .done () s

end Sys2Proof.Machine
end

