-- ==== Sys2Proof/Machine/InputOutput.lean ====
section
/-! DEFINITION. IN and OUT (R73 to R80): what the core does around a port transaction. -/

namespace Sys2Proof.Machine

/-- IN (R73): the index is checked before the port is touched; then the value the port returns is stored, whole, and pc
advances by 3. While port 0 waits nothing changes (R72, log 5). -/
def execInput (dest port : Word) (s : State) : Host.Outcome State Fault Refusal :=
  match indexOperand s.mem dest with
  | none => .next (s.raise .indexError dest)
  | some i =>
    match portIn port s with
    | .done v t => .next ((t.writeCell i v).goTo s.nextPc)
    | .waits => .next s
    | .ioError t => .next (t.raise .ioError port)
    | .noDisplay => .refused .noDisplay
    | .noPixel => .fault .pixelOutsideRaster

/-- OUT (R76): the index is checked and the cell read before the port is touched, whatever the port (R77, D29); the port
gets the whole cell; pc advances by 3. -/
def execOutput (src port : Word) (s : State) : Host.Outcome State Fault Refusal :=
  match indexOperand s.mem src with
  | none => .next (s.raise .indexError src)
  | some i =>
    match portOut port (s.mem.read i) s with
    | .done _ t => .next (t.goTo s.nextPc)
    | .waits => .next s
    | .ioError t => .next (t.raise .ioError port)
    | .noDisplay => .refused .noDisplay
    | .noPixel => .fault .pixelOutsideRaster

end Sys2Proof.Machine
end

