-- ==== Sys2Proof/Machine/Flags.lean ====
section
/-! DEFINITION. The machine has no status flags (R18). What other machines keep in flags is here the wrapped difference of
SUBLEQ and the test on it, computed and dropped inside one step (R86, R87). -/

namespace Sys2Proof.Machine

/-- `wrap64(z)`: the value of 64 bits congruent to `z` mod 2^64 (R7). -/
def wrap64 (z : Int) : Word := BitVec.ofInt 64 z

/-- SUBLEQ's difference: exact in the integers, then wrapped (R86). -/
def difference (x y : Word) : Word := wrap64 (x.toInt - y.toInt)

/-- SUBLEQ's test: the wrapped result is not positive as a signed number (R87). -/
def notPositive (r : Word) : Bool := decide (r.toInt ≤ 0)

end Sys2Proof.Machine
end

