-- ==== Sys2Proof/Machine/SubtractBranch.lean ====
section
/-! DEFINITION. SUBLEQ (R85 to R92). -/

namespace Sys2Proof.Machine

/-- SUBLEQ (R85): `a` is checked before `b` (D6), both cells are read before the write, the wrapped difference goes to
`mem[a]`, and pc goes to the latched `c` when it is not positive, else to pc + 3. -/
def execSubleq (a b c : Word) (s : State) : Host.Outcome State Fault Refusal :=
  match indexOperand s.mem a, indexOperand s.mem b with
  | none, _ => .next (s.raise .indexError a)
  | some _, none => .next (s.raise .indexError b)
  | some i, some j =>
    let r := difference (s.mem.read i) (s.mem.read j)
    .next ((s.writeCell i r).goTo (if notPositive r then c else s.nextPc))

end Sys2Proof.Machine
end

