-- ==== Sys2Proof/Machine/Dispatch.lean ====
section
/-! DEFINITION. The dispatch of a decoded instruction to its meaning (R66), one arm per constructor. -/

namespace Sys2Proof.Machine

def exec (i : Instr) (s : State) : Host.Outcome State Fault Refusal :=
  match i with
  | .input dest port => Sys2Proof.Machine.execInput dest port s
  | .output src port => Sys2Proof.Machine.execOutput src port s
  | .halt a b => Sys2Proof.Machine.execHalt a b s
  | .subleq a b c => Sys2Proof.Machine.execSubleq a b c s

end Sys2Proof.Machine
end

