-- ==== Sys2Proof/WellFormed.lean ====
section
/-! DEFINITION. When an instruction is one that some triple encodes: the fields that select it are not themselves the
sentinel of an operation tested earlier (R53). -/

namespace Sys2Proof

/-- IN: any operands. OUT: a is not -1. HALT: a and b are not -1. SUBLEQ: none of the three is -1 (R53). -/
def Instr.wf : Instr → Bool
  | .input _ _ => true
  | .output a _ => a != sentinel
  | .halt a b => a != sentinel && b != sentinel
  | .subleq a b c => a != sentinel && b != sentinel && c != sentinel

end Sys2Proof
end

