-- ==== Sys2Proof/Decode.lean ====
section
/-! DEFINITION. The decoder: total on any triple, by the priority of the sentinels (R52, R58); on a list of cells it rejects
only a list too short to hold a triple. Then the encoder (R50, R60) and the opcode table (R53, R58). -/

namespace Sys2Proof

/-- Why a list of cells is no instruction. -/
inductive DecodeReject where
  /-- Fewer than three cells are left (R49). -/
  | truncated
deriving DecidableEq, Repr

/-- The four-way dispatch in its priority order: a, then b, then c equal to -1, otherwise SUBLEQ (R52). -/
def decode (a b c : Word) : Instr :=
  if a = sentinel then .input b c
  else if b = sentinel then .output a c
  else if c = sentinel then .halt a b
  else .subleq a b c

/-- One instruction from the front of a list of cells, and the cells after it (R49). -/
def decodeCells : List Word → Except DecodeReject (Instr × List Word)
  | a :: b :: c :: rest => .ok (decode a b c, rest)
  | _ => .error .truncated

/-- Cell `k` of an instruction given as one number, bit 0 the least significant bit of the first cell (R50, log 27). -/
def tableCell (k w : Nat) : Word := BitVec.ofNat 64 (w >>> (64 * k))

/-- The instruction whose bits are `w`, numbered as spec/opcode_table.json numbers them: `I = {c, b, a}` (R50). Bits from
`nbits` on are 0. -/
def decodeTableWord (nbits w : Nat) : Option Instr :=
  let bits := w % 2 ^ nbits
  match decodeCells [tableCell 0 bits, tableCell 1 bits, tableCell 2 bits] with
  | .ok (i, _) => some i
  | .error _ => none

/-- The triple of an instruction (R60), the sentinel put back in its place (R51). -/
def encode : Instr → Word × Word × Word
  | .input dest port => (sentinel, dest, port)
  | .output src port => (src, sentinel, port)
  | .halt a b => (a, b, sentinel)
  | .subleq a b c => (a, b, c)

/-- The three cells of an instruction in memory order (R50). -/
def encodeCells (i : Instr) : List Word := [(encode i).1, (encode i).2.1, (encode i).2.2]

/-- The 192-bit value `I = {c, b, a}` of a triple (R50). -/
def packTriple (a b c : Word) : BitVec 192 := c ++ b ++ a

/-- The 192-bit value of an instruction as a number. -/
def tableWord (i : Instr) : Nat := (packTriple (encode i).1 (encode i).2.1 (encode i).2.2).toNat

/-- A row of spec/opcode_table.json: it matches when `(I & mask) == bits`. -/
structure OpcodeRow where
  mnemonic : String
  bits : BitVec 192
  mask : BitVec 192
deriving DecidableEq, Repr

/-- The rows in the order of their priority, 1 first (R58). -/
def opcodeRows : List OpcodeRow :=
  [⟨"IN", 0x00000000000000000000000000000000ffffffffffffffff#192, 0x00000000000000000000000000000000ffffffffffffffff#192⟩,
   ⟨"OUT", 0x0000000000000000ffffffffffffffff0000000000000000#192, 0x0000000000000000ffffffffffffffff0000000000000000#192⟩,
   ⟨"HALT", 0xffffffffffffffff00000000000000000000000000000000#192, 0xffffffffffffffff00000000000000000000000000000000#192⟩,
   ⟨"SUBLEQ", 0x0#192, 0x0#192⟩]

/-- The mnemonic of the row the table selects: the first, by priority, that matches (R58). -/
def opcodeRowOf (bits : BitVec 192) : Option String :=
  (opcodeRows.find? fun row => bits &&& row.mask == row.bits).map (·.mnemonic)

/-- The mnemonic of an instruction (R60). -/
def Instr.mnemonic : Instr → String
  | .input _ _ => "IN"
  | .output _ _ => "OUT"
  | .halt _ _ => "HALT"
  | .subleq _ _ _ => "SUBLEQ"

end Sys2Proof
end

