-- ==== Sys2Proof/Machine/Fetch.lean ====
section
/-! DEFINITION. What comes before an instruction's own effect: whether a step is taken, and the fetch (R63 to R66); and
placing an instruction where the next step fetches. -/

namespace Sys2Proof.Machine

/-- Cell `k` of the triple at pc (R65). -/
def State.fetchCell (s : State) (k : Nat) : Word := s.mem.read (s.pc.toNat + k)

/-- What a step begins with: the state it stays in when no instruction executes, or the instruction fetched. -/
inductive StepStart where
  | stay (s : State)
  | run (i : Instr)
deriving DecidableEq, Repr

/-- A machine that is not RUNNING takes no step (R19, log 4). A RUNNING one whose pc is outside the run range stops with
HALT_BOUNDS and no fetch happens (R64, R128 item 1). Otherwise the three cells at pc are latched and decoded (R65, R66). -/
def startStep (s : State) : StepStart :=
  match s.stop.status with
  | .running =>
    if s.mem.inRunRange s.pc then .run (decode (s.fetchCell 0) (s.fetchCell 1) (s.fetchCell 2))
    else .stay (s.stopNormally .haltBounds)
  | _ => .stay s

/-- Puts the triple (a, b, c) where the next step fetches. A RUNNING machine with pc in the run range gets it at pc. For
any other the host loads it as a whole program, as the loader and reset do: IMAGE, Memory and SIZE are the three cells, pc
is 0 and the machine RUNNING (R141, R143, log 3). -/
def State.placeTriple (s : State) (a b c : Word) : State :=
  match s.stop.status, s.mem.inRunRange s.pc with
  | .running, true =>
    let p := s.pc.toNat
    ((s.writeCell p a).writeCell (p + 1) b).writeCell (p + 2) c
  | _, _ =>
    { s with
      cfg := { s.cfg with image := [a, b, c] }
      mem := Memory.ofImage [a, b, c]
      pc := 0
      stop := StopRecord.running }

/-- The instruction whose bits are `w`, numbered as spec/opcode_table.json numbers them, put where the next step fetches
(R50). Bits from `nbits` on are 0. -/
def State.placeTableWord (s : State) (nbits w : Nat) : State :=
  let bits := w % 2 ^ nbits
  s.placeTriple (tableCell 0 bits) (tableCell 1 bits) (tableCell 2 bits)

end Sys2Proof.Machine
end

