-- ==== Sys2Proof/Machine/Step.lean ====
section
/-! DEFINITION. One step of the machine (R67): the start of the step, then the decoded instruction's meaning, which ends in
the run check. -/

namespace Sys2Proof.Machine

/-- One step (R67). -/
def step (s : State) : Host.Outcome State Fault Refusal :=
  match startStep s with
  | .stay t => .next t
  | .run i => exec i s

/-- `s` with the instruction whose bits are `w` where the next step fetches (log 3). -/
def State.withFetchWord (s : State) (nbits w : Nat) : State := s.placeTableWord nbits w

end Sys2Proof.Machine
end

