-- ==== Sys2Proof/Machine/Reset.lean ====
section
/-! DEFINITION. Reset (R110, R141, R142): the only way into RUNNING and the only way out of HALTED and FAULTED. -/

namespace Sys2Proof.Machine

/-- Whether controller initialisation fails: there is a display, and its `init(title)` fails (R110, R124). -/
def State.displayInitFails (s : State) : Bool := s.cfg.hasDisplay && s.env.initFails

/-- Controller initialisation (R110): cursor at the origin, no close request, the raster's contents unspecified (a new free
value, log 16), `init(title)` where there is a display, its title dropped (log 30). Bytes emitted and pictures shown before
are not this run's (R29, log 26). -/
def State.initController (s : State) : State :=
  State.countDraw
    { s with
      io := ⟨0, 0, ⟨[], s.draws⟩, false⟩
      env := { s.env with charOut := [], displayCalls := if s.cfg.hasDisplay then [.init] else [] } }

/-- The reset sequence (R141): Memory is IMAGE, the controller is initialised, pc is 0; a failed display initialisation
ends reset with DISPLAY_INIT_ERROR whatever SIZE is (R124, C8); otherwise RUNNING and the run check. -/
def State.applyReset (s : State) : State :=
  let loaded : State := State.initController { s with mem := Memory.ofImage s.cfg.image, pc := 0 }
  if s.displayInitFails then loaded.raise .displayInitError 0
  else State.runCheck { loaded with stop := StopRecord.running }

end Sys2Proof.Machine
end

