-- ==== Sys2Proof/Machine/Loader.lean ====
section
/-! DEFINITION. The Program Loader as far as it fixes IMAGE and SIZE (R4, R59, R143), and the writing of a program text it
reads back. It is outside the block: no step uses it (log 22). -/

namespace Sys2Proof.Machine

/-- Why there is no run (R125, R143). -/
inductive LoadError where
  /-- The source cannot be opened or read. -/
  | ioError
  /-- A token is not a valid integer. -/
  | formatError
deriving DecidableEq, Repr

/-- The characters that separate tokens. PRESUMED, log 22. -/
def isSeparator (c : Char) : Bool := c = ' ' || c = '\n' || c = '\t' || c = '\r' || c = '\x0b' || c = '\x0c'

/-- The tokens of a text; `cur` is the token being read, its last character first. -/
def tokensFrom (cur : List Char) : List Char → List (List Char)
  | [] => if cur.isEmpty then [] else [cur.reverse]
  | c :: rest =>
    if isSeparator c then
      if cur.isEmpty then tokensFrom [] rest else cur.reverse :: tokensFrom [] rest
    else tokensFrom (c :: cur) rest

/-- The value of a decimal digit. -/
def digitValue (c : Char) : Option Nat :=
  if '0'.toNat ≤ c.toNat ∧ c.toNat ≤ '9'.toNat then some (c.toNat - '0'.toNat) else none

/-- The value of a run of decimal digits that follow a value already read. -/
def digitsValue (acc : Nat) : List Char → Option Nat
  | [] => some acc
  | c :: rest =>
    match digitValue c with
    | some d => digitsValue (10 * acc + d) rest
    | none => none

/-- A run of at least one decimal digit. -/
def naturalToken : List Char → Option Nat
  | [] => none
  | c :: rest => digitsValue 0 (c :: rest)

/-- A base-10 signed integer (R59). A leading plus is not accepted (N9, U15, log 22). -/
def integerToken : List Char → Option Int
  | '-' :: rest => (naturalToken rest).map fun (n : Nat) => -(n : Int)
  | t => (naturalToken t).map fun (n : Nat) => (n : Int)

/-- A token's cell value; one that does not fit in 64 bits signed is not a valid integer (R143, D26). -/
def tokenWord (t : List Char) : Option Word :=
  match integerToken t with
  | some z => if -2 ^ 63 ≤ z ∧ z < 2 ^ 63 then some (BitVec.ofInt 64 z) else none
  | none => none

/-- The values of all tokens, in order. -/
def tokenWords : List (List Char) → Option (List Word)
  | [] => some []
  | t :: rest =>
    match tokenWord t, tokenWords rest with
    | some w, some ws => some (w :: ws)
    | _, _ => none

/-- IMAGE from a program text; no text is a source that cannot be read (R143). No padding, no halt appended. -/
def loadImage (text : Option (List Char)) : Except LoadError (List Word) :=
  match text with
  | none => .error .ioError
  | some cs =>
    match tokenWords (tokensFrom [] cs) with
    | some image => .ok image
    | none => .error .formatError

/-- The host loads a program and applies reset (R141, R145); on a loader error there is no run (R125). -/
def State.loadProgram (s : State) (text : Option (List Char)) : Except LoadError State :=
  match loadImage text with
  | .ok image => .ok (State.applyReset { s with cfg := { s.cfg with image := image } })
  | .error e => .error e

/-- The decimal digits of a number below `10 ^ fuel`. -/
def decimalDigits : Nat → Nat → List Char
  | 0, _ => []
  | fuel + 1, n =>
    if n < 10 then [Char.ofNat ('0'.toNat + n)]
    else decimalDigits fuel (n / 10) ++ [Char.ofNat ('0'.toNat + n % 10)]

/-- A cell value as a base-10 token. -/
def writeToken (w : Word) : List Char :=
  if w.toInt < 0 then '-' :: decimalDigits 20 w.toInt.natAbs else decimalDigits 20 w.toInt.natAbs

/-- A program text: the tokens, each followed by a newline (R143). -/
def writeImage : List Word → List Char
  | [] => []
  | w :: rest => writeToken w ++ '\n' :: writeImage rest

end Sys2Proof.Machine
end

