-- ==== Sys2Proof/Machine/HostInterface.lean ====
section
/-! DEFINITION. What the environment does between steps and what it may read (R97, R127, R134, R147, R148). -/

namespace Sys2Proof.Machine

/-- A move of the environment between two steps (R148). -/
inductive EnvEvent where
  /-- A byte arrives on the character input stream (R72). -/
  | supplyByte (k : Byte)
  /-- The input stream becomes ready, ends or breaks (R97, R99). -/
  | setInput (cond : InCond)
  /-- The output stream breaks or works again (R100). -/
  | setOutput (fails : Bool)
  /-- A sample is laid ready at the random source (R106). -/
  | supplyRandom (sample : BitVec 32)
  /-- The display's cached answer for a key changes by itself (D31, log 19). -/
  | setKey (k : Key) (held : Bool)
  /-- An input event is queued at the display, for the next present-and-poll (R107). -/
  | queueEvent (e : DisplayEvent)
  /-- The display's answer to the next `init(title)` (R110). -/
  | setInit (fails : Bool)
  /-- The host calls the display's `cleanup()`, which R97 and R148 name after a run ends. That the model lets it come and
  records it in every state, RUNNING or stopped, with or without a display, is a DESIGN CHOICE, log 31. -/
  | cleanup
  /-- The host applies reset (R141, R142). -/
  | reset
deriving DecidableEq, Repr

/-- The state after a move of the environment. Keys and events may come at any time (R148); that they and the answer to
`init` may come in a deployment without a display too is a DESIGN CHOICE, log 31. -/
def applyEvent (e : EnvEvent) (s : State) : State :=
  match e with
  | .supplyByte k => { s with env := { s.env with charIn := s.env.charIn ++ [k] } }
  | .setInput cond => { s with env := { s.env with charInCond := cond } }
  | .setOutput fails => { s with env := { s.env with charOutFails := fails } }
  | .supplyRandom sample => { s with env := { s.env with randoms := s.env.randoms ++ [sample] } }
  | .setKey k held => { s with env := { s.env with keys := setKeyHeld s.env.keys k held } }
  | .queueEvent e => { s with env := { s.env with pending := s.env.pending ++ [e] } }
  | .setInit fails => { s with env := { s.env with initFails := fails } }
  | .cleanup => s.callDisplay .cleanup
  | .reset => s.applyReset

/-- The host's read of a cell (R147): only of a machine that is not RUNNING, and only of a cell that exists. -/
def hostReadCell (s : State) (i : Nat) : Option Word :=
  match s.stop.status with
  | .running => none
  | _ => if i < s.mem.size then some (s.mem.read i) else none

/-- The host's read of the status interface (R147): the stop record and pc, at any time. -/
def hostReadStatus (s : State) : StopRecord × Word := (s.stop, s.pc)

/-- The exit code the host reports (R134): 0 for either normal ending, the configured non-zero code for a fault, none while
the machine runs. -/
def exitCode (s : State) : Option Nat :=
  match s.stop.status with
  | .running => none
  | .halted => some 0
  | .faulted => some s.cfg.faultExit

end Sys2Proof.Machine
end

