-- ==== Sys2Proof/Safety.lean ====
section
/-! DEFINITION. How a run ends (R70, R71), the invariant of every state a run reaches (R30), and the states runs reach. -/

namespace Sys2Proof.Machine

/-- A completed run (R70, R130): a normal ending. A fault aborts the run; it does not complete it. -/
def State.completed (s : State) : Bool := decide (s.stop.status = .halted)

/-- An aborted run (R130). -/
def State.aborted (s : State) : Bool := decide (s.stop.status = .faulted)

/-- The stop record agrees with itself and with pc (R20, R30, R71): RUNNING only in the run range; HALT_INSTR at an
instruction; HALT_BOUNDS outside the run range; INDEX_ERROR at an instruction, its info no index of a cell; IO_ERROR at an
instruction, its info port 0; DISPLAY_INIT_ERROR with pc 0. -/
def State.stopWf (s : State) : Bool :=
  match s.stop.status, s.stop.cause with
  | .running, .none => s.mem.inRunRange s.pc && s.stop.info == 0
  | .halted, .haltInstr => s.mem.inRunRange s.pc && s.stop.info == 0
  | .halted, .haltBounds => !s.mem.inRunRange s.pc && s.stop.info == 0
  | .faulted, .indexError => s.mem.inRunRange s.pc && !s.mem.inRange s.stop.info
  | .faulted, .ioError => s.mem.inRunRange s.pc && s.stop.info == 0
  | .faulted, .displayInitError => s.pc == 0 && s.stop.info == 0
  | _, _ => false

/-- The invariant: the parameters lie in their ranges (R5), Memory and the raster keep their form, Memory has SIZE cells
(R30 item 1), the cursor is in the raster (R30 item 4), and the stop record is legal (R20, R30 item 2, R71). -/
structure State.Inv (s : State) : Prop where
  cfgWf : s.cfg.wf = true
  memWf : s.mem.wf = true
  memSize : s.mem.size = s.cfg.image.length
  cursor : cursorInRaster s.cfg s.io = true
  rasterWf : s.io.raster.wf s.cfg = true
  stopWf : s.stopWf = true

/-- The states runs reach: those a reset leaves, with any parameters in their ranges and any environment (R141), and from
one of them by a step or a move of the environment. -/
inductive Reachable : State → Prop where
  | reset (s : State) (h : s.cfg.wf = true) : Reachable s.applyReset
  | step (s t : State) (h : Reachable s) (hs : step s = .next t) : Reachable t
  | event (s : State) (e : EnvEvent) (h : Reachable s) : Reachable (applyEvent e s)

/-- Two states that differ in nothing a program can read or act on: all but the raster, the cursor and the record of what
was emitted and shown (R23, R24, R27). -/
structure SameToProgram (s t : State) : Prop where
  cfg : s.cfg = t.cfg
  mem : s.mem = t.mem
  pc : s.pc = t.pc
  stop : s.stop = t.stop
  quit : s.io.quit = t.io.quit
  draws : s.draws = t.draws
  charIn : s.env.charIn = t.env.charIn
  charInCond : s.env.charInCond = t.env.charInCond
  charOutFails : s.env.charOutFails = t.env.charOutFails
  keys : s.env.keys = t.env.keys
  pending : s.env.pending = t.env.pending
  randoms : s.env.randoms = t.env.randoms

/-- The stop record after the run check on a new pc, spelled out (R63, R64): unchanged inside 0..SIZE-3, HALT_BOUNDS outside. -/
def State.stopAt (s : State) (pc : Word) : StopRecord :=
  if 0 ≤ pc.toInt ∧ pc.toInt ≤ (s.mem.size : Int) - 3 then s.stop else ⟨.halted, .haltBounds, 0⟩

/-- What the core does after a port transaction that is done, but for a stored value: pc + 3 and the run check (R79, R80);
configuration and Memory stay. -/
def CoreAdvanced (s t : State) : Prop :=
  t.cfg = s.cfg ∧ t.mem = s.mem ∧ t.pc = s.pc + 3 ∧ t.stop = s.stopAt (s.pc + 3)

/-- What the core does after a port input that returned `v`: `mem[i] <- v` and no other cell, pc + 3, the run check (R73,
R79); configuration and SIZE stay. -/
def CoreStored (s t : State) (i v : Word) : Prop :=
  t.cfg = s.cfg ∧ t.mem.size = s.mem.size ∧
    (∀ k, t.mem.read k = if k = i.toNat then v else s.mem.read k) ∧
    t.pc = s.pc + 3 ∧ t.stop = s.stopAt (s.pc + 3)

end Sys2Proof.Machine
end

