-- ==== Sys2Proof/Certificates/Slice0/Obligations.lean ====
section
/-! DEFINITION. The statements for the provers, from the numbered rules of spec/, family by family. -/

open Sys2Proof Sys2Proof.Machine

/-- R52: the sentinel -1 is looked for in a, then b, then c, and the first place it stands in selects the operation; with
none, it is SUBLEQ. Stated as equivalences, so that each operation is decoded from no other triple either. -/
def Obligations.DecodeFollowsThePriorityOfTheSentinels : Prop :=
  ∀ a b c : Word,
    (a = -1 ↔ decode a b c = .input b c) ∧
    (a ≠ -1 ∧ b = -1 ↔ decode a b c = .output a c) ∧
    (a ≠ -1 ∧ b ≠ -1 ∧ c = -1 ↔ decode a b c = .halt a b) ∧
    (a ≠ -1 ∧ b ≠ -1 ∧ c ≠ -1 ↔ decode a b c = .subleq a b c)

/-- R50, R60: decoding the 192-bit word of a well-formed instruction gives the instruction back, every operand at every
value. -/
def Obligations.DecodeOfEncodedInstructionIsIt : Prop :=
  ∀ i : Instr, i.wf = true → decodeTableWord 192 (tableWord i) = some i

/-- R53, R55, R58: every triple decodes to a well-formed instruction that encodes to the same triple, so no triple is
reserved and no two instructions share one. -/
def Obligations.EveryTripleIsAnInstruction : Prop :=
  ∀ a b c : Word, (decode a b c).wf = true ∧ encode (decode a b c) = (a, b, c)

/-- R58: the row of the opcode table that matches first, by priority, is the row of the decoded operation. -/
def Obligations.OpcodeTableSelectsTheDecodedOperation : Prop :=
  ∀ a b c : Word, opcodeRowOf (packTriple a b c) = some (decode a b c).mnemonic

/-- The five worked encodings of R62 (the 192-bit packing is the spec's own convention, R50): the 192-bit value decodes to
the instruction and is the value the instruction encodes to, and the program text gives its three cells. -/
def Obligations.WorkedEncodingsDecode : Prop :=
  (decodeTableWord 192 0x00000000000000000000000000000006FFFFFFFFFFFFFFFF = some (.input 6 0) ∧
    tableWord (.input 6 0) = 0x00000000000000000000000000000006FFFFFFFFFFFFFFFF ∧
    loadImage (some "-1 6 0".toList) = .ok (encodeCells (.input 6 0))) ∧
  (decodeTableWord 192 0x0000000000000000FFFFFFFFFFFFFFFF0000000000000006 = some (.output 6 0) ∧
    tableWord (.output 6 0) = 0x0000000000000000FFFFFFFFFFFFFFFF0000000000000006 ∧
    loadImage (some "6 -1 0".toList) = .ok (encodeCells (.output 6 0))) ∧
  (decodeTableWord 192 0xFFFFFFFFFFFFFFFF00000000000000000000000000000000 = some (.halt 0 0) ∧
    tableWord (.halt 0 0) = 0xFFFFFFFFFFFFFFFF00000000000000000000000000000000 ∧
    loadImage (some "0 0 -1".toList) = .ok (encodeCells (.halt 0 0))) ∧
  (decodeTableWord 192 0x0000000000000006000000000000000A0000000000000009 = some (.subleq 9 10 6) ∧
    tableWord (.subleq 9 10 6) = 0x0000000000000006000000000000000A0000000000000009 ∧
    loadImage (some "9 10 6".toList) = .ok (encodeCells (.subleq 9 10 6))) ∧
  (decodeTableWord 192 0xFFFFFFFFFFFFFFFE000000000000000B000000000000000B = some (.subleq 11 11 (-2)) ∧
    tableWord (.subleq 11 11 (-2)) = 0xFFFFFFFFFFFFFFFE000000000000000B000000000000000B ∧
    loadImage (some "11 11 -2".toList) = .ok (encodeCells (.subleq 11 11 (-2))))

/-- R65 to R67: a RUNNING machine with pc in the run range executes exactly the triple at pc, its three cells read before
any effect; so when they are the encoding of a well-formed instruction, it executes that one. -/
def Obligations.StepRunsTheFetchedInstruction : Prop :=
  ∀ s : State, s.stop.status = .running → 0 ≤ s.pc.toInt → s.pc.toInt ≤ (s.mem.size : Int) - 3 →
    step s = exec (decode (s.mem.read s.pc.toNat) (s.mem.read (s.pc.toNat + 1)) (s.mem.read (s.pc.toNat + 2))) s ∧
    ∀ i : Instr, i.wf = true →
      encode i = (s.mem.read s.pc.toNat, s.mem.read (s.pc.toNat + 1), s.mem.read (s.pc.toNat + 2)) → step s = exec i s

/-- A machine that is HALTED or FAULTED takes no step and nothing changes (R19); that the model's step then answers the
same state is the model's choice (log 4). -/
def Obligations.StoppedMachineChangesNothing : Prop :=
  ∀ s : State, s.stop.status = .halted ∨ s.stop.status = .faulted → step s = .next s

/-- A RUNNING machine whose pc is outside the run range stops with HALT_BOUNDS before any fetch, and nothing else changes
(R64, R128; the run range is decision D3, the kept pc decision D9; logs 7, 21). -/
def Obligations.StepOutsideTheRunRangeStops : Prop :=
  ∀ s : State, s.stop.status = .running → (s.pc.toInt < 0 ∨ (s.mem.size : Int) - 3 < s.pc.toInt) →
    step s = .next { s with stop := ⟨.halted, .haltBounds, 0⟩ }

/-- The run range of R63, by the spec's own decision D3 on its conflict C1 (log 7): 0 <= pc <= SIZE - 3, exactly the pc
whose three fetch indices are cells; empty for SIZE < 3, {0} for SIZE = 3. -/
def Obligations.RunRangeIsWhereTheTripleFits : Prop :=
  ∀ (m : Memory) (pc : Word), m.size < 2 ^ 63 →
    (m.inRunRange pc = true ↔ 0 ≤ pc.toInt ∧ pc.toInt ≤ (m.size : Int) - 3) ∧
    (m.inRunRange pc = true ↔ m.inRange pc = true ∧ m.inRange (pc + 1) = true ∧ m.inRange (pc + 2) = true) ∧
    (m.size < 3 → m.inRunRange pc = false) ∧
    (m.size = 3 → (m.inRunRange pc = true ↔ pc = 0))

/-- In the run range pc + 3 does not overflow (derived in R15). -/
def Obligations.PcPlusThreeDoesNotOverflow : Prop :=
  ∀ (m : Memory) (pc : Word), m.size < 2 ^ 63 → m.inRunRange pc = true →
    (pc + 3).toInt = pc.toInt + 3 ∧ (pc + 3).toInt ≤ m.size

/-- With both indices in range SUBLEQ completes (R85): the wrapped difference goes to `mem[a]` and to no other cell, pc
goes to `c` when it is not positive and to pc + 3 otherwise, the run check follows, and nothing else changes. -/
def Obligations.SubleqSubtractsStoresAndBranches : Prop :=
  ∀ (a b c : Word) (s : State), s.mem.inRange a = true → s.mem.inRange b = true →
    let r : Word := BitVec.ofInt 64 ((s.mem.read a.toNat).toInt - (s.mem.read b.toNat).toInt)
    let target : Word := if r.toInt ≤ 0 then c else s.pc + 3
    ∃ t : State, exec (.subleq a b c) s = .next t ∧
      t.mem.size = s.mem.size ∧ (∀ k, t.mem.read k = if k = a.toNat then r else s.mem.read k) ∧
      t.pc = target ∧ t.stop = s.stopAt target ∧
      t.cfg = s.cfg ∧ t.io = s.io ∧ t.env = s.env ∧ t.draws = s.draws

/-- SUBLEQ with an index out of range faults, `a` checked before `b`, and only the stop record changes (R85, R122, R130:
the spec's decisions D4, D5, D6, D10; log 8). -/
def Obligations.SubleqBadIndexFaults : Prop :=
  ∀ (a b c : Word) (s : State),
    (s.mem.inRange a = false → exec (.subleq a b c) s = .next { s with stop := ⟨.faulted, .indexError, a⟩ }) ∧
    (s.mem.inRange a = true → s.mem.inRange b = false →
      exec (.subleq a b c) s = .next { s with stop := ⟨.faulted, .indexError, b⟩ })

/-- The frame of SUBLEQ, whatever happens: only the cell `a` names, pc and the stop record may change. -/
def Obligations.SubleqFrame : Prop :=
  ∀ (a b c : Word) (s t : State), exec (.subleq a b c) s = .next t →
    t.cfg = s.cfg ∧ t.io = s.io ∧ t.env = s.env ∧ t.draws = s.draws ∧ t.mem.size = s.mem.size ∧
    ∀ k, indexOperand s.mem a ≠ some k → t.mem.read k = s.mem.read k

/-- R86: the difference is exact when it fits 64 bits signed, less 2^64 (negative) above, plus 2^64 (positive) below; and
it is the low 64 bits of the difference in every case. -/
def Obligations.DifferenceWrapsAroundSilently : Prop :=
  ∀ x y : Word,
    let z : Int := x.toInt - y.toInt
    (-2 ^ 63 ≤ z → z ≤ 2 ^ 63 - 1 → (difference x y).toInt = z) ∧
    (2 ^ 63 - 1 < z → (difference x y).toInt = z - 2 ^ 64 ∧ (difference x y).toInt < 0) ∧
    (z < -2 ^ 63 → (difference x y).toInt = z + 2 ^ 64 ∧ 0 < (difference x y).toInt) ∧
    difference x y = x - y

/-- R87: the branch is taken when the wrapped result is zero or has its sign bit set, and not when it lies in
1..INT64_MAX, whatever the true difference. -/
def Obligations.BranchFollowsTheWrappedSign : Prop :=
  ∀ (a b c : Word) (s : State), s.mem.inRange a = true → s.mem.inRange b = true →
    let r : Word := s.mem.read a.toNat - s.mem.read b.toNat
    (r = 0 ∨ r.msb = true → ∃ t : State, exec (.subleq a b c) s = .next t ∧ t.pc = c) ∧
    (1 ≤ r.toInt → r.toInt ≤ 2 ^ 63 - 1 → ∃ t : State, exec (.subleq a b c) s = .next t ∧ t.pc = s.pc + 3)

/-- R61, R90: SUBLEQ of a cell with itself clears the cell and always jumps. -/
def Obligations.SubleqOfACellWithItselfClearsAndJumps : Prop :=
  ∀ (a c : Word) (s : State), s.mem.inRange a = true →
    ∃ t : State, exec (.subleq a a c) s = .next t ∧ t.mem.read a.toNat = 0 ∧ t.pc = c

/-- A SUBLEQ whose `a` names its own c cell writes the cell but jumps, when it jumps, to the old c (R65, R90: the spec's
decision D11 that operands are latched; log 9). -/
def Obligations.SubleqOverItsOwnTargetJumpsToTheOldTarget : Prop :=
  ∀ (a b c : Word) (s : State), s.stop.status = .running → s.mem.inRunRange s.pc = true → s.mem.size < 2 ^ 63 →
    (Instr.subleq a b c).wf = true → a = s.pc + 2 → s.mem.inRange b = true →
    s.mem.read s.pc.toNat = a → s.mem.read (s.pc.toNat + 1) = b → s.mem.read (s.pc.toNat + 2) = c →
    (difference c (s.mem.read b.toNat)).toInt ≤ 0 →
    ∃ t : State, step s = .next t ∧ t.pc = c ∧
      t.mem.read (s.pc.toNat + 2) = difference c (s.mem.read b.toNat)

/-- HALT completes: the stop record says HALTED, HALT_INSTR, and nothing else changes, whatever the two ignored operands;
they are not checked as indices (R81; the stop record is the spec's decision D7, the kept pc D8; logs 4, 21). -/
def Obligations.HaltOnlyStops : Prop :=
  ∀ (a b : Word) (s : State), exec (.halt a b) s = .next { s with stop := ⟨.halted, .haltInstr, 0⟩ }

/-- R73, R108: IN from an unlisted port completes and stores 0; nothing else but pc and the run check. -/
def Obligations.InFromAnUnlistedPortStoresZero : Prop :=
  ∀ (b c : Word) (s : State), s.mem.inRange b = true → c ≠ 0 → c ≠ 1 → c ≠ 2 →
    ∃ t : State, exec (.input b c) s = .next t ∧ CoreStored s t b 0 ∧
      t.io = s.io ∧ t.env = s.env ∧ t.draws = s.draws

/-- R73, R99: IN from port 0 completes when a byte is supplied on a stream that can be read: the byte, unsigned, is
stored, and it is consumed; nothing else changes. -/
def Obligations.InFromPortZeroStoresTheNextByte : Prop :=
  ∀ (b : Word) (s : State) (k : Byte) (rest : List Byte), s.mem.inRange b = true → s.env.charInCond ≠ .failed →
    s.env.charIn = k :: rest →
    ∃ (t : State) (v : Word), exec (.input b 0) s = .next t ∧ CoreStored s t b v ∧ v.toInt = k.toNat ∧
      t.env = { s.env with charIn := rest } ∧ t.io = s.io ∧ t.draws = s.draws

/-- IN from port 0 with no byte supplied on a ready stream waits: nothing at all changes (R72; that the step answers the
same state is the model's way to write a step not enabled, log 5). -/
def Obligations.InFromPortZeroWaitsForAByte : Prop :=
  ∀ (b : Word) (s : State), s.mem.inRange b = true → s.env.charInCond = .ready → s.env.charIn = [] →
    exec (.input b 0) s = .next s

/-- The environment's stream conditions are the model's (logs 6, 24): IN from port 0 faults with IO_ERROR, info 0, when
the stream cannot be read, and at its end under the default EOF_POLICY; only the stop record changes (R99, R123; decisions
D16, D27). -/
def Obligations.InFromPortZeroFaultsWhenItCannotRead : Prop :=
  ∀ (b : Word) (s : State), s.mem.inRange b = true →
    (s.env.charInCond = .failed ∨ s.env.charInCond = .ended ∧ s.env.charIn = [] ∧ s.cfg.eofPolicy = .ioError) →
    exec (.input b 0) s = .next { s with stop := ⟨.faulted, .ioError, 0⟩ }

/-- The model's EOF policies (D16, log 10): at the end of the stream a deployment whose EOF_POLICY returns a value stores
that value, and one whose policy waits changes nothing. -/
def Obligations.InAtEndOfStreamFollowsTheEofPolicy : Prop :=
  ∀ (b : Word) (s : State), s.mem.inRange b = true → s.env.charInCond = .ended → s.env.charIn = [] →
    (∀ v : Word, s.cfg.eofPolicy = .returns v →
      ∃ t : State, exec (.input b 0) s = .next t ∧ CoreStored s t b v ∧ t.env = s.env ∧ t.io = s.io ∧ t.draws = s.draws) ∧
    (s.cfg.eofPolicy = .waits → exec (.input b 0) s = .next s)

/-- IN from port 1 completes and stores a key code (R105; that the close request outranks the keys and that any held key
may be the one reported is decision D21, log 13): 27 for a close request whatever is held, else 0 with no key held, else
the code of a held key (so the code of the one key when one is held); the controller and the environment stay. -/
def Obligations.InFromPortOneStoresAKeyCode : Prop :=
  ∀ (b : Word) (s : State), s.mem.inRange b = true → s.cfg.hasDisplay = true →
    ∃ (t : State) (v : Word), exec (.input b 1) s = .next t ∧ CoreStored s t b v ∧
      t.io = s.io ∧ t.env = s.env ∧ t.draws = s.draws ∧
      (s.io.quit = true → v = 27) ∧
      (s.io.quit = false → (∀ k, isKeyHeld s.env.keys k = false) → v = 0) ∧
      (s.io.quit = false → ∀ k, isKeyHeld s.env.keys k = true → ∃ j, isKeyHeld s.env.keys j = true ∧ v = codeOfKey j)

/-- R6, R105: the fixed key codes. -/
def Obligations.KeyCodesAreTheFixedOnes : Prop :=
  codeOfKey .up = 128 ∧ codeOfKey .down = 129 ∧ codeOfKey .left = 130 ∧ codeOfKey .right = 131 ∧
  codeOfKey .enter = 10 ∧ codeOfKey .escape = 27 ∧ closeRequestCode = 27

/-- IN from port 2 completes (R106; the sign extension is decision D17, log 14) and stores a 32-bit sample read as signed,
so in -2^31..2^31-1: the sample laid ready, which is consumed, or, with none ready, one of which nothing is known (log
14). -/
def Obligations.InFromPortTwoStoresASignedSample : Prop :=
  ∀ (b : Word) (s : State), s.mem.inRange b = true → s.cfg.hasDisplay = true →
    ∃ (t : State) (sample : BitVec 32) (v : Word), exec (.input b 2) s = .next t ∧ CoreStored s t b v ∧
      v.toInt = sample.toInt ∧ t.io = s.io ∧
      (∀ r rest, s.env.randoms = r :: rest →
        sample = r ∧ t.env = { s.env with randoms := rest } ∧ t.draws = s.draws) ∧
      (s.env.randoms = [] → t.env = s.env)

/-- IN with its index out of range faults before the port is touched: only the stop record changes, no byte or sample is
consumed and it never waits (R73, R122, R128; decisions D4, D5, D10, log 8). -/
def Obligations.InBadIndexFaultsBeforeThePort : Prop :=
  ∀ (b c : Word) (s : State), s.mem.inRange b = false →
    exec (.input b c) s = .next { s with stop := ⟨.faulted, .indexError, b⟩ }

/-- The frame of IN, whatever happens: only the cell `b` names, pc, the stop record, the supplied bytes, the ready samples
and the draw counter may change. -/
def Obligations.InFrame : Prop :=
  ∀ (b c : Word) (s t : State), exec (.input b c) s = .next t →
    t.cfg = s.cfg ∧ t.io = s.io ∧ t.mem.size = s.mem.size ∧
    t.env = { s.env with charIn := t.env.charIn, randoms := t.env.randoms } ∧
    (t.env.charIn = s.env.charIn ∨ c = 0 ∧ ∃ k, s.env.charIn = k :: t.env.charIn) ∧
    (t.env.randoms = s.env.randoms ∨ c = 2 ∧ ∃ r, s.env.randoms = r :: t.env.randoms) ∧
    (t.draws = s.draws ∨ c = 2) ∧
    ∀ k, indexOperand s.mem b ≠ some k → t.mem.read k = s.mem.read k

/-- R96: the values a port input returns lie in the port's set: 0..255 (and what EOF_POLICY returns) from port 0, a key
code from port 1, a signed 32-bit number from port 2, 0 from any other. -/
def Obligations.PortInputsLieInTheirRanges : Prop :=
  ∀ (p v : Word) (s t : State), portIn p s = .done v t →
    (p = 0 → 0 ≤ v.toInt ∧ v.toInt ≤ 255 ∨ s.cfg.eofPolicy = .returns v) ∧
    (p = 1 → v ∈ [(0 : Word), 10, 27, 128, 129, 130, 131]) ∧
    (p = 2 → -2 ^ 31 ≤ v.toInt ∧ v.toInt ≤ 2 ^ 31 - 1) ∧
    (p ≠ 0 → p ≠ 1 → p ≠ 2 → v = 0 ∧ t = s)

/-- R76, R100: OUT to port 0 of a value 0..255 completes on a stream that can be written: its byte is appended to
`char_out`; nothing else but pc and the run check. -/
def Obligations.OutToPortZeroEmitsTheByte : Prop :=
  ∀ (a : Word) (s : State), s.mem.inRange a = true → s.env.charOutFails = false →
    0 ≤ (s.mem.read a.toNat).toInt → (s.mem.read a.toNat).toInt ≤ 255 →
    ∃ (t : State) (k : Byte), exec (.output a 0) s = .next t ∧ CoreAdvanced s t ∧
      (k.toNat : Int) = (s.mem.read a.toNat).toInt ∧ t.env = { s.env with charOut := s.env.charOut ++ [k] } ∧
      t.io = s.io ∧ t.draws = s.draws

/-- R100: OUT to port 0 of any other value completes and emits nothing, with no error, even on a stream that cannot be
written. -/
def Obligations.OutToPortZeroDropsOtherValues : Prop :=
  ∀ (a : Word) (s : State), s.mem.inRange a = true →
    ((s.mem.read a.toNat).toInt < 0 ∨ 255 < (s.mem.read a.toNat).toInt) →
    ∃ t : State, exec (.output a 0) s = .next t ∧ CoreAdvanced s t ∧ t.env = s.env ∧ t.io = s.io ∧ t.draws = s.draws

/-- (R123; decision D27, log 15.) OUT to port 0 of a value 0..255 on a stream that cannot be written faults with IO_ERROR,
info 0; Memory and pc stay; `char_out` is as before or has the byte added, which of the two is open (log 15). -/
def Obligations.OutToPortZeroFaultsWhenItCannotWrite : Prop :=
  ∀ (a : Word) (s : State), s.mem.inRange a = true → s.env.charOutFails = true →
    0 ≤ (s.mem.read a.toNat).toInt → (s.mem.read a.toNat).toInt ≤ 255 →
    ∃ (t : State) (k : Byte), exec (.output a 0) s = .next t ∧ t.stop = ⟨.faulted, .ioError, 0⟩ ∧
      (k.toNat : Int) = (s.mem.read a.toNat).toInt ∧
      t.mem = s.mem ∧ t.pc = s.pc ∧ t.cfg = s.cfg ∧ t.io = s.io ∧
      (t.env = s.env ∨ t.env = { s.env with charOut := s.env.charOut ++ [k] })

/-- (R104; log 28.) OUT to port 1 completes with the cursor in the raster (an invariant, R30): the colour of the narrowed
value is painted at the cursor and told to the display, no other element changes, and the cursor moves one cell right, at
the end of a row to the next row, after the last row to the origin. -/
def Obligations.OutToPortOnePaintsAndAdvancesTheCursor : Prop :=
  ∀ (a : Word) (s : State), s.mem.inRange a = true → s.cfg.hasDisplay = true →
    s.io.curX < s.cfg.rasterW → s.io.curY < s.cfg.rasterH →
    let col := colourOf s.cfg (pixNarrow s.cfg (s.mem.read a.toNat))
    ∃ t : State, exec (.output a 1) s = .next t ∧ CoreAdvanced s t ∧
      t.io.raster.read s.cfg s.io.curX s.io.curY = col ∧
      (∀ x y, x < s.cfg.rasterW → (x ≠ s.io.curX ∨ y ≠ s.io.curY) →
        t.io.raster.read s.cfg x y = s.io.raster.read s.cfg x y) ∧
      (s.io.curX + 1 < s.cfg.rasterW → t.io.curX = s.io.curX + 1 ∧ t.io.curY = s.io.curY) ∧
      (s.io.curX + 1 = s.cfg.rasterW → s.io.curY + 1 < s.cfg.rasterH → t.io.curX = 0 ∧ t.io.curY = s.io.curY + 1) ∧
      (s.io.curX + 1 = s.cfg.rasterW → s.io.curY + 1 = s.cfg.rasterH → t.io.curX = 0 ∧ t.io.curY = 0) ∧
      t.io.quit = s.io.quit ∧ t.draws = s.draws ∧
      t.env = { s.env with displayCalls := s.env.displayCalls ++ [.setPixel s.io.curX s.io.curY col] }

/-- (R107; the latch is decision D22, the display's event list the model's, log 19.) OUT to port 2 completes whatever the
value: the raster is shown as it stands, every pending event is taken in, and a close request among them sets `quit`,
which never goes back; raster and cursor stay. -/
def Obligations.OutToPortTwoPresentsAndPolls : Prop :=
  ∀ (a : Word) (s : State), s.mem.inRange a = true → s.cfg.hasDisplay = true →
    ∃ t : State, exec (.output a 2) s = .next t ∧ CoreAdvanced s t ∧
      t.io.raster = s.io.raster ∧ t.io.curX = s.io.curX ∧ t.io.curY = s.io.curY ∧
      (t.io.quit = true ↔ s.io.quit = true ∨ .closeRequest ∈ s.env.pending) ∧ t.draws = s.draws ∧
      t.env = { s.env with
        keys := s.env.pending.foldl DisplayEvent.takeIn s.env.keys
        pending := []
        displayCalls := s.env.displayCalls ++ [.present s.io.raster] }

/-- R77, R108: OUT to an unlisted port completes and does nothing but pc + 3 and the run check. -/
def Obligations.OutToAnUnlistedPortOnlyAdvances : Prop :=
  ∀ (a c : Word) (s : State), s.mem.inRange a = true → c ≠ 0 → c ≠ 1 → c ≠ 2 →
    ∃ t : State, exec (.output a c) s = .next t ∧ CoreAdvanced s t ∧ t.env = s.env ∧ t.io = s.io ∧ t.draws = s.draws

/-- OUT with its index out of range faults, whatever the port, and only the stop record changes (R76, R77, R122; decisions
D4, D5, D10, D29, log 8). -/
def Obligations.OutBadIndexFaultsBeforeThePort : Prop :=
  ∀ (a c : Word) (s : State), s.mem.inRange a = false →
    exec (.output a c) s = .next { s with stop := ⟨.faulted, .indexError, a⟩ }

/-- The frame of OUT, whatever happens: Memory and configuration stay; the environment changes at most in `char_out` (port
0), the display's record (ports 1 and 2) and the key state and pending events (port 2); the controller only on ports 1 and
2. -/
def Obligations.OutFrame : Prop :=
  ∀ (a c : Word) (s t : State), exec (.output a c) s = .next t →
    t.mem = s.mem ∧ t.cfg = s.cfg ∧
    t.env.charIn = s.env.charIn ∧ t.env.charInCond = s.env.charInCond ∧ t.env.charOutFails = s.env.charOutFails ∧
    t.env.initFails = s.env.initFails ∧ t.env.randoms = s.env.randoms ∧
    (c ≠ 0 → t.env.charOut = s.env.charOut ∧ t.draws = s.draws) ∧
    (c ≠ 2 → t.env.keys = s.env.keys ∧ t.env.pending = s.env.pending ∧ t.io.quit = s.io.quit) ∧
    (c ≠ 1 → t.io.raster = s.io.raster ∧ t.io.curX = s.io.curX ∧ t.io.curY = s.io.curY) ∧
    (c ≠ 1 → c ≠ 2 → t.env.displayCalls = s.env.displayCalls)

/-- The spec's decision D30 (R113, log 17): in a deployment without a display IN and OUT on ports 1 and 2, their index in
range, are refused by name. -/
def Obligations.DisplayPortsAreRefusedWithoutADisplay : Prop :=
  ∀ (i c : Word) (s : State), s.cfg.hasDisplay = false → s.mem.inRange i = true → c = 1 ∨ c = 2 →
    exec (.input i c) s = .refused .noDisplay ∧ exec (.output i c) s = .refused .noDisplay

/-- (R101, R102; the defaults are decisions D18, D19, the bound on another rounding the model's, log 12.) A byte is
painted as itself; the default narrowing takes the low byte; the default component is the floor of the exact value; and
any other rounding lies within 1 of it. -/
def Obligations.GradientFollowsTheFormula : Prop :=
  (∀ (cfg : Config) (v : Word), 0 ≤ v.toInt → v.toInt ≤ 255 → ((pixNarrow cfg v).toNat : Int) = v.toInt) ∧
  (∀ (cfg : Config) (v : Word), cfg.pixNarrow = .lowByte → (pixNarrow cfg v).toNat = v.toNat % 256) ∧
  (∀ (cfg : Config) (ch : Channel) (accent v : Byte), cfg.gradient = .floor →
    (v.toNat ≤ 127 → (component cfg ch accent v).toNat = accent.toNat * 2 * v.toNat / 255) ∧
    (128 ≤ v.toNat → (component cfg ch accent v).toNat =
      accent.toNat + (255 - accent.toNat) * (2 * v.toNat - 255) / 255)) ∧
  (∀ (cfg cfg' : Config) (ch : Channel) (accent v : Byte), cfg.gradient = .floor →
    (component cfg' ch accent v).toNat ≤ (component cfg ch accent v).toNat + 1 ∧
    (component cfg ch accent v).toNat ≤ (component cfg' ch accent v).toNat + 1)

/-- (R103; that another rounding is exact at the end points is the model's, log 12.) Under every rounding 0 paints black
and 255 white; under the default 128 paints the accent component (1 where the accent is 0) and 127 one below it (0 where
the accent is 0). -/
def Obligations.GradientEndPoints : Prop :=
  (∀ cfg : Config, colourOf cfg 0 = ⟨0, 0, 0⟩ ∧ colourOf cfg 255 = ⟨255, 255, 255⟩) ∧
  (∀ (cfg : Config) (ch : Channel) (accent : Byte), cfg.gradient = .floor →
    component cfg ch accent 128 = (if accent = 0 then 1 else accent) ∧
    component cfg ch accent 127 = (if accent = 0 then 0 else accent - 1))

/-- R104: the cursor walks the raster in row-major order and stays in it. -/
def Obligations.CursorWalksTheRasterInRowMajorOrder : Prop :=
  ∀ (cfg : Config) (io : Controller), io.curX < cfg.rasterW → io.curY < cfg.rasterH →
    let next := advanceCursor cfg io
    next.curX < cfg.rasterW ∧ next.curY < cfg.rasterH ∧
    rasterIndex cfg next.curX next.curY = (rasterIndex cfg io.curX io.curY + 1) % (cfg.rasterW * cfg.rasterH)

/-- R104: after RASTER_W * RASTER_H outputs the cursor is back where it was. -/
def Obligations.CursorReturnsAfterAWholeRaster : Prop :=
  ∀ (cfg : Config) (io : Controller), io.curX < cfg.rasterW → io.curY < cfg.rasterH →
    (advanceCursor cfg)^[cfg.rasterW * cfg.rasterH] io = io

/-- R108: every port other than 0, 1 and 2 reads 0 and ignores writes, at once, with no error, and changes nothing. -/
def Obligations.UnlistedPortsReadZeroAndIgnoreWrites : Prop :=
  ∀ (p v : Word) (s : State), p ≠ 0 → p ≠ 1 → p ≠ 2 → portIn p s = .done 0 s ∧ portOut p v s = .done () s

/-- R109: only port-0 input ever waits, and no output does. -/
def Obligations.OnlyPortZeroInputWaits : Prop :=
  ∀ (p v : Word) (s : State), (portIn p s = .waits → p = 0 ∧ s.env.charIn = []) ∧ portOut p v s ≠ .waits

/-- R111: only port 0 raises IOError, on input and on output. -/
def Obligations.OnlyPortZeroFails : Prop :=
  ∀ (p v : Word) (s t : State), (portIn p s = .ioError t → p = 0 ∧ t = s) ∧
    (portOut p v s = .ioError t → p = 0 ∧ 0 ≤ v.toInt ∧ v.toInt ≤ 255 ∧ s.env.charOutFails = true)

/-- R88: only SUBLEQ sets pc to anything but pc + 3, and it sets it to its operand c. -/
def Obligations.OnlySubleqBranches : Prop :=
  ∀ (i : Instr) (s t : State), exec i s = .next t →
    t.pc = s.pc ∨ t.pc = s.pc + 3 ∨ ∃ a b c, i = .subleq a b c ∧ t.pc = c

/-- R14, R37: only IN and SUBLEQ write Memory, one cell each, and SIZE never changes. -/
def Obligations.OnlyInAndSubleqWriteMemory : Prop :=
  ∀ (i : Instr) (s t : State), exec i s = .next t →
    t.mem.size = s.mem.size ∧
    ∀ k, t.mem.read k ≠ s.mem.read k →
      (∃ b c, i = .input b c ∧ indexOperand s.mem b = some k) ∨ ∃ a b c, i = .subleq a b c ∧ indexOperand s.mem a = some k

/-- The spec's decision D10 (R130): a fault is precise: a step that leaves a RUNNING machine FAULTED leaves pc, Memory,
configuration, the controller and the environment as they were, but for `char_out` (R123, log 15). -/
def Obligations.FaultsArePrecise : Prop :=
  ∀ s t : State, s.stop.status = .running → step s = .next t → t.stop.status = .faulted →
    t.pc = s.pc ∧ t.mem = s.mem ∧ t.cfg = s.cfg ∧ t.io = s.io ∧
    t.env = { s.env with charOut := t.env.charOut } ∧
    (t.env.charOut = s.env.charOut ∨ ∃ k, t.env.charOut = s.env.charOut ++ [k])

/-- From a state that meets the invariant, in a deployment with a display, the model's step answers a next state. For a
RUNNING machine that does not wait on port 0 that is R154's progress. R154 excludes a machine that waits, and R19 gives a
stopped one no step: that the model's step answers a state at all in these two cases is the model's choice (logs 4, 5). -/
def Obligations.EveryStepAnswersANextState : Prop :=
  ∀ s : State, s.Inv → s.cfg.hasDisplay = true → ∃ t : State, step s = .next t

/-- R30: the invariant holds after a step from any state that meets it. -/
def Obligations.EveryStepKeepsTheInvariant : Prop :=
  ∀ s t : State, s.Inv → step s = .next t → t.Inv

/-- The invariant holds at reset. -/
def Obligations.ResetMeetsTheInvariant : Prop := State.reset.Inv

/-- The invariant holds after a move of the environment, reset among them. -/
def Obligations.EveryEnvironmentMoveKeepsTheInvariant : Prop :=
  ∀ (e : EnvEvent) (s : State), s.Inv → (applyEvent e s).Inv

/-- R30: in every state a run reaches, Memory has SIZE cells, a RUNNING machine has pc in the run range and so at least
three cells, the cursor is in the raster, and a stopped machine's step changes nothing (that such a step answers the same
state is the model's choice, log 4). -/
def Obligations.ReachableStatesMeetTheSpecsInvariants : Prop :=
  ∀ s : State, Reachable s →
    s.mem.size = s.cfg.image.length ∧
    (s.stop.status = .running → 0 ≤ s.pc.toInt ∧ s.pc.toInt ≤ (s.mem.size : Int) - 3 ∧ 3 ≤ s.mem.size) ∧
    (s.stop.status ≠ .running → step s = .next s) ∧
    s.io.curX < s.cfg.rasterW ∧ s.io.curY < s.cfg.rasterH

/-- R29, R141, R144: what reset leaves: IMAGE in Memory, pc 0, the cursor at the origin, no close request, no byte
emitted; RUNNING if SIZE >= 3, HALT_BOUNDS if less, and DISPLAY_INIT_ERROR, whatever SIZE is, if the display fails to
initialise. -/
def Obligations.ResetLoadsTheImageAndStarts : Prop :=
  ∀ s : State,
    let t := s.applyReset
    let fails : Prop := s.cfg.hasDisplay = true ∧ s.env.initFails = true
    t.cfg = s.cfg ∧ t.mem.size = s.cfg.image.length ∧
    (∀ (i : Nat) (h : i < s.cfg.image.length), t.mem.read i = s.cfg.image[i]) ∧
    t.pc = 0 ∧ t.io.curX = 0 ∧ t.io.curY = 0 ∧ t.io.quit = false ∧ t.env.charOut = [] ∧
    (fails → t.stop = ⟨.faulted, .displayInitError, 0⟩) ∧
    (¬fails → 3 ≤ s.cfg.image.length → t.stop = ⟨.running, .none, 0⟩) ∧
    (¬fails → s.cfg.image.length < 3 → t.stop = ⟨.halted, .haltBounds, 0⟩)

/-- State.reset has no program and stands as R144 says of SIZE 0: HALTED, HALT_BOUNDS, pc 0, no cell. Its step answers
State.reset itself, and it equals a reset of the state that differs from it only in having drawn no free value. The empty
image (log 2), the step of a stopped machine (log 4), the draw counter (log 16) and the environment (log 18) are the
model's choices. -/
def Obligations.ResetStateHasNoProgram : Prop :=
  State.reset.cfg.image = [] ∧ State.reset.mem.size = 0 ∧ State.reset.pc = 0 ∧
  State.reset.stop = ⟨.halted, .haltBounds, 0⟩ ∧ step State.reset = .next State.reset ∧
  State.reset = State.applyReset { State.reset with draws := 0 }

/-- R127, R148: no move of the environment but reset changes Memory, pc, the stop record, the controller or the
configuration. -/
def Obligations.EnvironmentMovesLeaveTheMachineAlone : Prop :=
  ∀ (e : EnvEvent) (s : State), e ≠ .reset →
    (applyEvent e s).mem = s.mem ∧ (applyEvent e s).pc = s.pc ∧ (applyEvent e s).stop = s.stop ∧
    (applyEvent e s).io = s.io ∧ (applyEvent e s).cfg = s.cfg

/-- R23, R24: a program cannot read the raster, the cursor or what was emitted and shown: two states that meet the
invariant and differ in nothing else step alike, and differ in nothing else afterwards. -/
def Obligations.ProgramsCannotSeeTheRaster : Prop :=
  ∀ s t s' : State, s.Inv → t.Inv → SameToProgram s t → step s = .next s' →
    ∃ t' : State, step t = .next t' ∧ SameToProgram s' t'

/-- R143: serialising a sequence of values as text and loading it reproduces the sequence exactly. -/
def Obligations.LoadingAWrittenImageReproducesIt : Prop :=
  ∀ image : List Word, loadImage (some (writeImage image)) = .ok image

/-- R125, R143: a source that cannot be read and a token that is not an integer each end the load with their error, and
there is no run. -/
def Obligations.LoaderErrorsStartNoRun : Prop :=
  ∀ s : State,
    s.loadProgram none = .error .ioError ∧
    ∀ cs t, t ∈ tokensFrom [] cs → tokenWord t = none → s.loadProgram (some cs) = .error .formatError

/-- R134: the exit code: 0 for a normal ending of either cause, not 0 for a fault. -/
def Obligations.ExitCodeTellsFaultsFromNormalEndings : Prop :=
  ∀ s : State, s.cfg.wf = true →
    (s.stop.status = .halted → exitCode s = some 0) ∧
    (s.stop.status = .faulted → ∃ n, exitCode s = some n ∧ n ≠ 0) ∧
    (s.stop.status = .running → exitCode s = none)
end

