-- ==== Sys2Proof/Laws/Encoding.lean ====
section
/-! SUPPORT. The sentinel as a literal, and the cells of the 192-bit value of a triple (R50). -/

namespace Sys2Proof

/-- The sentinel in the spelling simp gives the literal -1. -/
@[simp] theorem sentinel_eq : sentinel = 18446744073709551615#64 := rfl

/-- The 192-bit value as a number: a in the low 64 bits, then b, then c (R50). -/
theorem packTriple_toNat (a b c : Word) :
    (packTriple a b c).toNat = a.toNat + 2 ^ 64 * b.toNat + 2 ^ 128 * c.toNat := by
  unfold packTriple
  rw [BitVec.toNat_append, BitVec.toNat_append, ← Nat.shiftLeft_add_eq_or_of_lt a.isLt,
    ← Nat.shiftLeft_add_eq_or_of_lt b.isLt, Nat.shiftLeft_eq, Nat.shiftLeft_eq]
  omega

/-- The cells of the 192-bit value are the triple. -/
theorem tableCell_packTriple (a b c : Word) :
    tableCell 0 ((packTriple a b c).toNat % 2 ^ 192) = a ∧ tableCell 1 ((packTriple a b c).toNat % 2 ^ 192) = b ∧
    tableCell 2 ((packTriple a b c).toNat % 2 ^ 192) = c := by
  have ha := a.isLt
  have hb := b.isLt
  have hc := c.isLt
  have h : (packTriple a b c).toNat % 2 ^ 192 = a.toNat + 2 ^ 64 * b.toNat + 2 ^ 128 * c.toNat := by
    rw [packTriple_toNat]; omega
  rw [h]
  refine ⟨?_, ?_, ?_⟩ <;> apply BitVec.eq_of_toNat_eq <;>
    simp only [tableCell, BitVec.toNat_ofNat, Nat.shiftRight_eq_div_pow] <;> omega

/-- Two triples have the same 192-bit value only when they are the same. -/
theorem packTriple_inj {a b c a' b' c' : Word} :
    packTriple a b c = packTriple a' b' c' ↔ a = a' ∧ b = b' ∧ c = c' := by
  constructor
  · intro h
    have h := congrArg BitVec.toNat h
    rw [packTriple_toNat, packTriple_toNat] at h
    have := a.isLt; have := a'.isLt; have := b.isLt; have := b'.isLt
    refine ⟨?_, ?_, ?_⟩ <;> apply BitVec.eq_of_toNat_eq <;> omega
  · rintro ⟨rfl, rfl, rfl⟩; rfl

/-- Masking the 192-bit value masks its cells. -/
theorem packTriple_and (a b c x y z : Word) :
    packTriple a b c &&& packTriple x y z = packTriple (a &&& x) (b &&& y) (c &&& z) := by
  unfold packTriple
  exact BitVec.and_append.trans (congrArg (· ++ (a &&& x)) BitVec.and_append)

end Sys2Proof
end

