-- ==== Sys2Proof/Laws/State.lean ====
section
/-! SUPPORT. One lemma per field per update of the state, so that no later proof unfolds a record update; the run check,
pc updates and the controller's updates of several fields follow. -/

namespace Sys2Proof.Machine

@[simp] theorem stopNormally_cfg (s : State) (k : Cause) : (s.stopNormally k).cfg = s.cfg := rfl
@[simp] theorem stopNormally_mem (s : State) (k : Cause) : (s.stopNormally k).mem = s.mem := rfl
@[simp] theorem stopNormally_pc (s : State) (k : Cause) : (s.stopNormally k).pc = s.pc := rfl
@[simp] theorem stopNormally_stop (s : State) (k : Cause) : (s.stopNormally k).stop = ⟨.halted, k, 0⟩ := rfl
@[simp] theorem stopNormally_io (s : State) (k : Cause) : (s.stopNormally k).io = s.io := rfl
@[simp] theorem stopNormally_env (s : State) (k : Cause) : (s.stopNormally k).env = s.env := rfl
@[simp] theorem stopNormally_draws (s : State) (k : Cause) : (s.stopNormally k).draws = s.draws := rfl

@[simp] theorem raise_cfg (s : State) (k : Cause) (w : Word) : (s.raise k w).cfg = s.cfg := rfl
@[simp] theorem raise_mem (s : State) (k : Cause) (w : Word) : (s.raise k w).mem = s.mem := rfl
@[simp] theorem raise_pc (s : State) (k : Cause) (w : Word) : (s.raise k w).pc = s.pc := rfl
@[simp] theorem raise_stop (s : State) (k : Cause) (w : Word) : (s.raise k w).stop = ⟨.faulted, k, w⟩ := rfl
@[simp] theorem raise_io (s : State) (k : Cause) (w : Word) : (s.raise k w).io = s.io := rfl
@[simp] theorem raise_env (s : State) (k : Cause) (w : Word) : (s.raise k w).env = s.env := rfl
@[simp] theorem raise_draws (s : State) (k : Cause) (w : Word) : (s.raise k w).draws = s.draws := rfl

@[simp] theorem writeCell_cfg (s : State) (i : Nat) (v : Word) : (s.writeCell i v).cfg = s.cfg := rfl
@[simp] theorem writeCell_mem (s : State) (i : Nat) (v : Word) : (s.writeCell i v).mem = s.mem.write i v := rfl
@[simp] theorem writeCell_pc (s : State) (i : Nat) (v : Word) : (s.writeCell i v).pc = s.pc := rfl
@[simp] theorem writeCell_stop (s : State) (i : Nat) (v : Word) : (s.writeCell i v).stop = s.stop := rfl
@[simp] theorem writeCell_io (s : State) (i : Nat) (v : Word) : (s.writeCell i v).io = s.io := rfl
@[simp] theorem writeCell_env (s : State) (i : Nat) (v : Word) : (s.writeCell i v).env = s.env := rfl
@[simp] theorem writeCell_draws (s : State) (i : Nat) (v : Word) : (s.writeCell i v).draws = s.draws := rfl

@[simp] theorem consumeChar_cfg (s : State) : (s.consumeChar).cfg = s.cfg := rfl
@[simp] theorem consumeChar_mem (s : State) : (s.consumeChar).mem = s.mem := rfl
@[simp] theorem consumeChar_pc (s : State) : (s.consumeChar).pc = s.pc := rfl
@[simp] theorem consumeChar_stop (s : State) : (s.consumeChar).stop = s.stop := rfl
@[simp] theorem consumeChar_io (s : State) : (s.consumeChar).io = s.io := rfl
@[simp] theorem consumeChar_env (s : State) : (s.consumeChar).env = { s.env with charIn := s.env.charIn.tail } := rfl
@[simp] theorem consumeChar_draws (s : State) : (s.consumeChar).draws = s.draws := rfl

@[simp] theorem emitChar_cfg (s : State) (k : Byte) : (s.emitChar k).cfg = s.cfg := rfl
@[simp] theorem emitChar_mem (s : State) (k : Byte) : (s.emitChar k).mem = s.mem := rfl
@[simp] theorem emitChar_pc (s : State) (k : Byte) : (s.emitChar k).pc = s.pc := rfl
@[simp] theorem emitChar_stop (s : State) (k : Byte) : (s.emitChar k).stop = s.stop := rfl
@[simp] theorem emitChar_io (s : State) (k : Byte) : (s.emitChar k).io = s.io := rfl
@[simp] theorem emitChar_env (s : State) (k : Byte) : (s.emitChar k).env = { s.env with charOut := s.env.charOut ++ [k] } := rfl
@[simp] theorem emitChar_draws (s : State) (k : Byte) : (s.emitChar k).draws = s.draws := rfl

@[simp] theorem countDraw_cfg (s : State) : (s.countDraw).cfg = s.cfg := rfl
@[simp] theorem countDraw_mem (s : State) : (s.countDraw).mem = s.mem := rfl
@[simp] theorem countDraw_pc (s : State) : (s.countDraw).pc = s.pc := rfl
@[simp] theorem countDraw_stop (s : State) : (s.countDraw).stop = s.stop := rfl
@[simp] theorem countDraw_io (s : State) : (s.countDraw).io = s.io := rfl
@[simp] theorem countDraw_env (s : State) : (s.countDraw).env = s.env := rfl
@[simp] theorem countDraw_draws (s : State) : (s.countDraw).draws = s.draws + 1 := rfl

@[simp] theorem callDisplay_cfg (s : State) (c : DisplayCall) : (s.callDisplay c).cfg = s.cfg := rfl
@[simp] theorem callDisplay_mem (s : State) (c : DisplayCall) : (s.callDisplay c).mem = s.mem := rfl
@[simp] theorem callDisplay_pc (s : State) (c : DisplayCall) : (s.callDisplay c).pc = s.pc := rfl
@[simp] theorem callDisplay_stop (s : State) (c : DisplayCall) : (s.callDisplay c).stop = s.stop := rfl
@[simp] theorem callDisplay_io (s : State) (c : DisplayCall) : (s.callDisplay c).io = s.io := rfl
@[simp] theorem callDisplay_env (s : State) (c : DisplayCall) : (s.callDisplay c).env = { s.env with displayCalls := s.env.displayCalls ++ [c] } := rfl
@[simp] theorem callDisplay_draws (s : State) (c : DisplayCall) : (s.callDisplay c).draws = s.draws := rfl

/-! The run check touches the stop record only. -/

@[simp] theorem runCheck_cfg (s : State) : s.runCheck.cfg = s.cfg := by unfold State.runCheck; split <;> rfl
@[simp] theorem runCheck_mem (s : State) : s.runCheck.mem = s.mem := by unfold State.runCheck; split <;> rfl
@[simp] theorem runCheck_pc (s : State) : s.runCheck.pc = s.pc := by unfold State.runCheck; split <;> rfl
@[simp] theorem runCheck_io (s : State) : s.runCheck.io = s.io := by unfold State.runCheck; split <;> rfl
@[simp] theorem runCheck_env (s : State) : s.runCheck.env = s.env := by unfold State.runCheck; split <;> rfl
@[simp] theorem runCheck_draws (s : State) : s.runCheck.draws = s.draws := by unfold State.runCheck; split <;> rfl

/-- The run check's stop record, as `stopAt` spells it out. -/
@[simp] theorem runCheck_stop (s : State) : s.runCheck.stop = s.stopAt s.pc := by
  unfold State.runCheck State.stopAt Memory.inRunRange
  by_cases h : 0 ≤ s.pc.toInt ∧ s.pc.toInt ≤ (s.mem.size : Int) - 3
  · rw [if_pos h, if_pos]; simp; omega
  · rw [if_neg h, if_neg]; · rfl
    simp; omega

@[simp] theorem goTo_cfg (s : State) (target : Word) : (s.goTo target).cfg = s.cfg := by simp [State.goTo]
@[simp] theorem goTo_mem (s : State) (target : Word) : (s.goTo target).mem = s.mem := by simp [State.goTo]
@[simp] theorem goTo_pc (s : State) (target : Word) : (s.goTo target).pc = target := by simp [State.goTo]
@[simp] theorem goTo_io (s : State) (target : Word) : (s.goTo target).io = s.io := by simp [State.goTo]
@[simp] theorem goTo_env (s : State) (target : Word) : (s.goTo target).env = s.env := by simp [State.goTo]
@[simp] theorem goTo_draws (s : State) (target : Word) : (s.goTo target).draws = s.draws := by simp [State.goTo]
@[simp] theorem goTo_stop (s : State) (target : Word) : (s.goTo target).stop = s.stopAt target := by
  simp [State.goTo, State.stopAt]

/-! `stopAt` depends on SIZE and the old stop record only. -/

theorem stopAt_congr (s t : State) (pc : Word) (hm : s.mem.size = t.mem.size) (hs : s.stop = t.stop) :
    s.stopAt pc = t.stopAt pc := by simp [State.stopAt, hm, hs]

@[simp] theorem paintPixel_cfg (s : State) (col : Colour) : (s.paintPixel col).cfg = s.cfg := rfl
@[simp] theorem paintPixel_mem (s : State) (col : Colour) : (s.paintPixel col).mem = s.mem := rfl
@[simp] theorem paintPixel_pc (s : State) (col : Colour) : (s.paintPixel col).pc = s.pc := rfl
@[simp] theorem paintPixel_stop (s : State) (col : Colour) : (s.paintPixel col).stop = s.stop := rfl
@[simp] theorem paintPixel_io (s : State) (col : Colour) : (s.paintPixel col).io =
    advanceCursor s.cfg { s.io with raster := s.io.raster.paint s.cfg s.io.curX s.io.curY col } := rfl
@[simp] theorem paintPixel_env (s : State) (col : Colour) : (s.paintPixel col).env =
    { s.env with displayCalls := s.env.displayCalls ++ [.setPixel s.io.curX s.io.curY col] } := rfl
@[simp] theorem paintPixel_draws (s : State) (col : Colour) : (s.paintPixel col).draws = s.draws := rfl

@[simp] theorem presentAndPoll_cfg (s : State) : s.presentAndPoll.cfg = s.cfg := rfl
@[simp] theorem presentAndPoll_mem (s : State) : s.presentAndPoll.mem = s.mem := rfl
@[simp] theorem presentAndPoll_pc (s : State) : s.presentAndPoll.pc = s.pc := rfl
@[simp] theorem presentAndPoll_stop (s : State) : s.presentAndPoll.stop = s.stop := rfl
@[simp] theorem presentAndPoll_io (s : State) : s.presentAndPoll.io =
    { s.io with quit := s.io.quit || s.env.pending.contains .closeRequest } := rfl
@[simp] theorem presentAndPoll_env (s : State) : s.presentAndPoll.env =
    { s.env with
      keys := s.env.pending.foldl DisplayEvent.takeIn s.env.keys
      pending := []
      displayCalls := s.env.displayCalls ++ [.present s.io.raster] } := rfl
@[simp] theorem presentAndPoll_draws (s : State) : s.presentAndPoll.draws = s.draws := rfl

@[simp] theorem initController_cfg (s : State) : s.initController.cfg = s.cfg := rfl
@[simp] theorem initController_mem (s : State) : s.initController.mem = s.mem := rfl
@[simp] theorem initController_pc (s : State) : s.initController.pc = s.pc := rfl
@[simp] theorem initController_stop (s : State) : s.initController.stop = s.stop := rfl
@[simp] theorem initController_io (s : State) : s.initController.io =
    ⟨0, 0, ⟨[], s.draws⟩, false⟩ := rfl
@[simp] theorem initController_env (s : State) : s.initController.env =
    { s.env with charOut := [], displayCalls := if s.cfg.hasDisplay then [.init] else [] } := rfl
@[simp] theorem initController_draws (s : State) : s.initController.draws =
    s.draws + 1 := rfl

/-! A failed `CharPut` touches `char_out` and the draw counter only. -/

@[simp] theorem failedPut_cfg (s : State) (k : Byte) : (s.failedPut k).cfg = s.cfg := by
  unfold State.failedPut; split <;> rfl
@[simp] theorem failedPut_mem (s : State) (k : Byte) : (s.failedPut k).mem = s.mem := by
  unfold State.failedPut; split <;> rfl
@[simp] theorem failedPut_pc (s : State) (k : Byte) : (s.failedPut k).pc = s.pc := by
  unfold State.failedPut; split <;> rfl
@[simp] theorem failedPut_stop (s : State) (k : Byte) : (s.failedPut k).stop = s.stop := by
  unfold State.failedPut; split <;> rfl
@[simp] theorem failedPut_io (s : State) (k : Byte) : (s.failedPut k).io = s.io := by
  unfold State.failedPut; split <;> rfl
@[simp] theorem failedPut_draws (s : State) (k : Byte) : (s.failedPut k).draws = s.draws + 1 := by
  unfold State.failedPut; split <;> rfl
@[simp] theorem failedPut_env (s : State) (k : Byte) : (s.failedPut k).env =
    { s.env with charOut := if Config.charPutLanded s.draws then s.env.charOut ++ [k] else s.env.charOut } := by
  unfold State.failedPut; split <;> rfl

end Sys2Proof.Machine
end

