-- ==== Sys2Proof/Laws/Io.lean ====
section
/-! SUPPORT. What each shared operation of the operands and of the I/O controller can do, once: one lemma each, for proofs
to cite instead of unfolding it. -/

namespace Sys2Proof.Machine

/-! Operands. -/

theorem inRange_iff (m : Memory) (i : Word) : m.inRange i = true ↔ 0 ≤ i.toInt ∧ i.toInt < m.size := by
  simp [Memory.inRange]

theorem inRunRange_iff (m : Memory) (pc : Word) : m.inRunRange pc = true ↔ 0 ≤ pc.toInt ∧ pc.toInt + 3 ≤ m.size := by
  simp [Memory.inRunRange]

/-- A word that is not negative is the same number signed and unsigned. -/
theorem toNat_of_nonneg {i : Word} (h : 0 ≤ i.toInt) : (i.toNat : Int) = i.toInt := by
  rw [BitVec.toInt_eq_toNat_cond] at h ⊢
  split at h <;> rename_i hlt
  · rw [if_pos hlt]
  · have := i.isLt; omega

/-- An index in range names a cell of Memory. -/
theorem lt_size_of_inRange {m : Memory} {i : Word} (h : m.inRange i = true) : i.toNat < m.size := by
  have h := (inRange_iff m i).mp h
  have := toNat_of_nonneg h.1
  omega

@[simp] theorem indexOperand_eq_some (m : Memory) (i : Word) (k : Nat) :
    indexOperand m i = some k ↔ m.inRange i = true ∧ i.toNat = k := by
  unfold indexOperand; split <;> simp_all

@[simp] theorem indexOperand_eq_none (m : Memory) (i : Word) : indexOperand m i = none ↔ m.inRange i = false := by
  unfold indexOperand; split <;> simp_all

theorem indexOperand_of_inRange {m : Memory} {i : Word} (h : m.inRange i = true) : indexOperand m i = some i.toNat := by
  simp [h]

/-! The ports, and which operation each is. -/

/-- `PortIn` by port number (R94). -/
theorem portIn_cases (p : Word) (s : State) :
    (p = 0 ∧ portIn p s = port0In s) ∨ (p = 1 ∧ portIn p s = ifDisplay s (port1In s)) ∨
    (p = 2 ∧ portIn p s = ifDisplay s (port2In s)) ∨ (p ≠ 0 ∧ p ≠ 1 ∧ p ≠ 2 ∧ portIn p s = .done 0 s) := by
  unfold portIn portOperand; split_ifs <;> simp_all

/-- `PortOut` by port number (R95). -/
theorem portOut_cases (p v : Word) (s : State) :
    (p = 0 ∧ portOut p v s = port0Out v s) ∨ (p = 1 ∧ portOut p v s = ifDisplay s (port1Out v s)) ∨
    (p = 2 ∧ portOut p v s = ifDisplay s (port2Out s)) ∨ (p ≠ 0 ∧ p ≠ 1 ∧ p ≠ 2 ∧ portOut p v s = .done () s) := by
  unfold portOut portOperand; split_ifs <;> simp_all

theorem ifDisplay_cases {α : Type} (s : State) (ans : PortAnswer α) :
    (s.cfg.hasDisplay = true ∧ ifDisplay s ans = ans) ∨ (s.cfg.hasDisplay = false ∧ ifDisplay s ans = .noDisplay) := by
  unfold ifDisplay; split <;> simp_all

/-- Port-0 input (R99): a byte, a failure, a wait, or the value EOF_POLICY returns. -/
theorem port0In_cases (s : State) :
    (∃ k rest, s.env.charInCond ≠ .failed ∧ s.env.charIn = k :: rest ∧ port0In s = .done (k.setWidth 64) s.consumeChar) ∨
    ((s.env.charInCond = .failed ∨ s.env.charInCond = .ended ∧ s.env.charIn = [] ∧ s.cfg.eofPolicy = .ioError) ∧
      port0In s = .ioError s) ∨
    (s.env.charIn = [] ∧ (s.env.charInCond = .ready ∨ s.env.charInCond = .ended ∧ s.cfg.eofPolicy = .waits) ∧
      port0In s = .waits) ∨
    (∃ v, s.env.charInCond = .ended ∧ s.env.charIn = [] ∧ s.cfg.eofPolicy = .returns v ∧ port0In s = .done v s) := by
  unfold port0In charGet
  cases hc : s.env.charInCond <;> cases hi : s.env.charIn <;> simp
  cases he : s.cfg.eofPolicy <;> simp

/-- Port-0 output (R100): emitted, failed, or dropped. -/
theorem port0Out_cases (v : Word) (s : State) :
    (isByteValue v = true ∧ s.env.charOutFails = false ∧ port0Out v s = .done () (s.emitChar (v.setWidth 8))) ∨
    (isByteValue v = true ∧ s.env.charOutFails = true ∧ port0Out v s = .ioError (s.failedPut (v.setWidth 8))) ∨
    (isByteValue v = false ∧ port0Out v s = .done () s) := by
  unfold port0Out; split_ifs <;> simp_all

/-- Port-1 output (R104): painted, or no element at the cursor (log 25). -/
theorem port1Out_cases (v : Word) (s : State) :
    (cursorInRaster s.cfg s.io = true ∧ port1Out v s = .done () (s.paintPixel (colourOf s.cfg (pixNarrow s.cfg v)))) ∨
    (cursorInRaster s.cfg s.io = false ∧ port1Out v s = .noPixel) := by
  unfold port1Out; split <;> simp_all

/-- `Random32` (R106): a ready sample, consumed, or a free value, counted. -/
theorem random32_cases (s : State) :
    (∃ r rest, s.env.randoms = r :: rest ∧ random32 s = (r, { s with env := { s.env with randoms := rest } })) ∨
    (s.env.randoms = [] ∧ random32 s = (Config.freeRandom s.draws, s.countDraw)) := by
  unfold random32; cases s.env.randoms <;> simp

/-! What a port transaction leaves alone. -/

/-- A port input that is done changes no more than the supplied bytes, the ready samples and the draw counter. -/
theorem portIn_done_frame {p v : Word} {s t : State} (h : portIn p s = .done v t) :
    t.cfg = s.cfg ∧ t.mem = s.mem ∧ t.pc = s.pc ∧ t.stop = s.stop ∧ t.io = s.io ∧
    t.env = { s.env with charIn := t.env.charIn, randoms := t.env.randoms } := by
  rcases portIn_cases p s with ⟨-, e⟩ | ⟨-, e⟩ | ⟨-, e⟩ | ⟨-, -, -, e⟩ <;> rw [e] at h
  · rcases port0In_cases s with ⟨k, rest, -, -, e⟩ | ⟨-, e⟩ | ⟨-, -, e⟩ | ⟨v, -, -, -, e⟩ <;> rw [e] at h <;> simp at h
    · obtain ⟨-, rfl⟩ := h; simp
    · obtain ⟨-, rfl⟩ := h; simp
  · rcases ifDisplay_cases s (port1In s) with ⟨-, e⟩ | ⟨-, e⟩ <;> rw [e] at h <;> simp [port1In] at h
    obtain ⟨-, rfl⟩ := h; simp
  · rcases ifDisplay_cases s (port2In s) with ⟨-, e⟩ | ⟨-, e⟩ <;> rw [e] at h <;> simp [port2In] at h
    obtain ⟨-, rfl⟩ := h
    rcases random32_cases s with ⟨r, rest, -, e⟩ | ⟨-, e⟩ <;> simp [e]
  · simp at h; obtain ⟨-, rfl⟩ := h; simp

/-- A port input that fails leaves the state as it was, and the port is 0 (R111). -/
theorem portIn_ioError {p : Word} {s t : State} (h : portIn p s = .ioError t) : p = 0 ∧ t = s := by
  rcases portIn_cases p s with ⟨hp, e⟩ | ⟨-, e⟩ | ⟨-, e⟩ | ⟨-, -, -, e⟩ <;> rw [e] at h
  · rcases port0In_cases s with ⟨k, rest, -, -, e⟩ | ⟨-, e⟩ | ⟨-, -, e⟩ | ⟨v, -, -, -, e⟩ <;> rw [e] at h <;> simp at h
    exact ⟨hp, h.symm⟩
  · rcases ifDisplay_cases s (port1In s) with ⟨-, e⟩ | ⟨-, e⟩ <;> rw [e] at h <;> simp [port1In] at h
  · rcases ifDisplay_cases s (port2In s) with ⟨-, e⟩ | ⟨-, e⟩ <;> rw [e] at h <;> simp [port2In] at h
  · simp at h

/-- No port input reports a missing raster element. -/
theorem portIn_ne_noPixel (p : Word) (s : State) : portIn p s ≠ .noPixel := by
  intro h
  rcases portIn_cases p s with ⟨-, e⟩ | ⟨-, e⟩ | ⟨-, e⟩ | ⟨-, -, -, e⟩ <;> rw [e] at h
  · rcases port0In_cases s with ⟨k, rest, -, -, e⟩ | ⟨-, e⟩ | ⟨-, -, e⟩ | ⟨v, -, -, -, e⟩ <;> rw [e] at h <;> simp at h
  · rcases ifDisplay_cases s (port1In s) with ⟨-, e⟩ | ⟨-, e⟩ <;> rw [e] at h <;> simp [port1In] at h
  · rcases ifDisplay_cases s (port2In s) with ⟨-, e⟩ | ⟨-, e⟩ <;> rw [e] at h <;> simp [port2In] at h
  · simp at h

/-- A port output that is done, by what it did (R95). -/
theorem portOut_done_cases {p v : Word} {s t : State} {u : Unit} (h : portOut p v s = .done u t) :
    (t = s ∧ p ≠ 1 ∧ p ≠ 2) ∨ (p = 0 ∧ isByteValue v = true ∧ t = s.emitChar (v.setWidth 8)) ∨
    (p = 1 ∧ s.cfg.hasDisplay = true ∧ cursorInRaster s.cfg s.io = true ∧
      t = s.paintPixel (colourOf s.cfg (pixNarrow s.cfg v))) ∨
    (p = 2 ∧ s.cfg.hasDisplay = true ∧ t = s.presentAndPoll) := by
  rcases portOut_cases p v s with ⟨hp, e⟩ | ⟨hp, e⟩ | ⟨hp, e⟩ | ⟨h0, h1, h2, e⟩ <;> rw [e] at h
  · rcases port0Out_cases v s with ⟨hb, -, e⟩ | ⟨-, -, e⟩ | ⟨-, e⟩ <;> rw [e] at h <;> simp at h
    · exact Or.inr (Or.inl ⟨hp, hb, h.symm⟩)
    · exact Or.inl ⟨h.symm, by simp [hp], by simp [hp]⟩
  · rcases ifDisplay_cases s (port1Out v s) with ⟨hd, e⟩ | ⟨-, e⟩ <;> rw [e] at h
    · rcases port1Out_cases v s with ⟨hc, e⟩ | ⟨-, e⟩ <;> rw [e] at h <;> simp at h
      exact Or.inr (Or.inr (Or.inl ⟨hp, hd, hc, h.symm⟩))
    · simp at h
  · rcases ifDisplay_cases s (port2Out s) with ⟨hd, e⟩ | ⟨-, e⟩ <;> rw [e] at h <;> simp [port2Out] at h
    exact Or.inr (Or.inr (Or.inr ⟨hp, hd, h.symm⟩))
  · simp at h; exact Or.inl ⟨h.symm, h1, h2⟩

/-- A port output that fails is port 0, on a value it would have emitted (R111, R123). -/
theorem portOut_ioError {p v : Word} {s t : State} (h : portOut p v s = .ioError t) :
    p = 0 ∧ isByteValue v = true ∧ s.env.charOutFails = true ∧ t = s.failedPut (v.setWidth 8) := by
  rcases portOut_cases p v s with ⟨hp, e⟩ | ⟨-, e⟩ | ⟨-, e⟩ | ⟨-, -, -, e⟩ <;> rw [e] at h
  · rcases port0Out_cases v s with ⟨hb, -, e⟩ | ⟨hb, hf, e⟩ | ⟨-, e⟩ <;> rw [e] at h <;> simp at h
    exact ⟨hp, hb, hf, h.symm⟩
  · rcases ifDisplay_cases s (port1Out v s) with ⟨-, e⟩ | ⟨-, e⟩ <;> rw [e] at h
    · rcases port1Out_cases v s with ⟨-, e⟩ | ⟨-, e⟩ <;> rw [e] at h <;> simp at h
    · simp at h
  · rcases ifDisplay_cases s (port2Out s) with ⟨-, e⟩ | ⟨-, e⟩ <;> rw [e] at h <;> simp [port2Out] at h
  · simp at h

/-- A port output that reports a missing raster element is port 1 with its cursor outside (log 25). -/
theorem portOut_noPixel {p v : Word} {s : State} (h : portOut p v s = .noPixel) :
    p = 1 ∧ cursorInRaster s.cfg s.io = false := by
  rcases portOut_cases p v s with ⟨-, e⟩ | ⟨hp, e⟩ | ⟨-, e⟩ | ⟨-, -, -, e⟩ <;> rw [e] at h
  · rcases port0Out_cases v s with ⟨-, -, e⟩ | ⟨-, -, e⟩ | ⟨-, e⟩ <;> rw [e] at h <;> simp at h
  · rcases ifDisplay_cases s (port1Out v s) with ⟨-, e⟩ | ⟨-, e⟩ <;> rw [e] at h
    · rcases port1Out_cases v s with ⟨-, e⟩ | ⟨hc, e⟩ <;> rw [e] at h <;> simp at h
      exact ⟨hp, hc⟩
    · simp at h
  · rcases ifDisplay_cases s (port2Out s) with ⟨-, e⟩ | ⟨-, e⟩ <;> rw [e] at h <;> simp [port2Out] at h
  · simp at h

end Sys2Proof.Machine
end

