-- ==== Sys2Proof/Laws/Memory.lean ====
section
/-! SUPPORT. The laws of lists keyed by rising index and of Memory over them: a read after a write, the canonical form kept
by every operation, the image read back. -/

namespace Sys2Proof.Machine

variable {α : Type}

/-! Lists keyed by rising index. -/

theorem cellsGet_set (k j : Nat) (v : α) (l : List (Nat × α)) :
    cellsGet k (cellsSet j v l) = if k = j then some v else cellsGet k l := by
  induction l with
  | nil => simp [cellsSet, cellsGet]
  | cons c rest ih =>
    obtain ⟨i, w⟩ := c
    unfold cellsSet
    split_ifs <;> simp_all [cellsGet]

theorem cellsGet_erase (k j : Nat) (l : List (Nat × α)) :
    cellsGet k (cellsErase j l) = if k = j then none else cellsGet k l := by
  induction l with
  | nil => simp [cellsErase, cellsGet]
  | cons c rest ih =>
    obtain ⟨i, w⟩ := c
    unfold cellsErase
    split_ifs <;> simp_all [cellsGet]

theorem cellsRise_mono {lo lo' : Nat} {l : List (Nat × α)} (hle : lo' ≤ lo) (h : cellsRise lo l = true) :
    cellsRise lo' l = true := by
  cases l with
  | nil => rfl
  | cons c rest => obtain ⟨i, w⟩ := c; simp_all [cellsRise]; omega

theorem cellsRise_set {lo k : Nat} {l : List (Nat × α)} (v : α) (hk : lo ≤ k) (h : cellsRise lo l = true) :
    cellsRise lo (cellsSet k v l) = true := by
  induction l generalizing lo with
  | nil => simp [cellsSet, cellsRise, hk]
  | cons c rest ih =>
    obtain ⟨i, w⟩ := c
    simp only [cellsRise, Bool.and_eq_true, decide_eq_true_eq] at h
    unfold cellsSet
    split_ifs with h1 h2
    · simp only [cellsRise, Bool.and_eq_true, decide_eq_true_eq]; exact ⟨hk, by omega, h.2⟩
    · subst h2; simp only [cellsRise, Bool.and_eq_true, decide_eq_true_eq]; exact h
    · simp only [cellsRise, Bool.and_eq_true, decide_eq_true_eq]; exact ⟨h.1, ih (by omega) h.2⟩

theorem cellsRise_erase {lo k : Nat} {l : List (Nat × α)} (h : cellsRise lo l = true) :
    cellsRise lo (cellsErase k l) = true := by
  induction l generalizing lo with
  | nil => rfl
  | cons c rest ih =>
    obtain ⟨i, w⟩ := c
    simp only [cellsRise, Bool.and_eq_true, decide_eq_true_eq] at h
    unfold cellsErase
    split_ifs
    · exact cellsRise_mono (by omega) (ih h.2)
    · simp only [cellsRise, Bool.and_eq_true, decide_eq_true_eq]; exact ⟨h.1, ih h.2⟩

theorem mem_cellsSet {k : Nat} {v : α} {l : List (Nat × α)} {c : Nat × α} (h : c ∈ cellsSet k v l) : c = (k, v) ∨ c ∈ l := by
  induction l with
  | nil => simpa [cellsSet] using h
  | cons d rest ih =>
    obtain ⟨i, w⟩ := d
    unfold cellsSet at h
    split_ifs at h <;> simp only [List.mem_cons] at h ⊢ <;> tauto

theorem mem_cellsErase {k : Nat} {l : List (Nat × α)} {c : Nat × α} (h : c ∈ cellsErase k l) : c ∈ l := by
  induction l with
  | nil => simp [cellsErase] at h
  | cons d rest ih =>
    obtain ⟨i, w⟩ := d
    unfold cellsErase at h
    split_ifs at h <;> simp only [List.mem_cons] at h ⊢ <;> tauto

/-! Memory. -/

@[simp] theorem write_size (m : Memory) (i : Nat) (v : Word) : (m.write i v).size = m.size := rfl

/-- A read after a write: the value written at its cell, every other cell as before. -/
@[simp] theorem read_write (m : Memory) (i k : Nat) (v : Word) :
    (m.write i v).read k = if k = i then v else m.read k := by
  unfold Memory.read Memory.write
  split_ifs with h1 h2 h2 <;> simp_all [cellsGet_erase, cellsGet_set]

@[simp] theorem inRange_write (m : Memory) (i : Nat) (v w : Word) : (m.write i v).inRange w = m.inRange w := rfl

@[simp] theorem inRunRange_write (m : Memory) (i : Nat) (v w : Word) : (m.write i v).inRunRange w = m.inRunRange w := rfl

/-- A write inside Memory keeps the canonical form. -/
theorem write_wf {m : Memory} {i : Nat} (v : Word) (h : m.wf = true) (hi : i < m.size) : (m.write i v).wf = true := by
  simp only [Memory.wf, Bool.and_eq_true, List.all_eq_true, decide_eq_true_eq, bne_iff_ne] at h ⊢
  unfold Memory.write
  split_ifs with hv
  · exact ⟨cellsRise_erase h.1, fun c hc => h.2 c (mem_cellsErase hc)⟩
  · refine ⟨cellsRise_set v (Nat.zero_le i) h.1, fun c hc => ?_⟩
    rcases mem_cellsSet hc with rfl | hc
    · exact ⟨hi, hv⟩
    · exact h.2 c hc

theorem imageCells_rise (image : List Word) (i : Nat) : cellsRise i (imageCells i image) = true := by
  induction image generalizing i with
  | nil => rfl
  | cons v rest ih =>
    unfold imageCells
    split_ifs
    · exact cellsRise_mono (Nat.le_succ i) (ih (i + 1))
    · simp [cellsRise, ih (i + 1)]

theorem mem_imageCells {image : List Word} {i : Nat} {c : Nat × Word} (h : c ∈ imageCells i image) :
    i ≤ c.1 ∧ c.1 < i + image.length ∧ c.2 ≠ Memory.unlisted := by
  induction image generalizing i with
  | nil => simp [imageCells] at h
  | cons v rest ih =>
    unfold imageCells at h
    split_ifs at h with hv
    · have := ih h; simp only [List.length_cons]; exact ⟨by omega, by omega, this.2.2⟩
    · rcases List.mem_cons.mp h with rfl | h
      · simp only [List.length_cons]; exact ⟨le_rfl, by omega, hv⟩
      · have := ih h; simp only [List.length_cons]; exact ⟨by omega, by omega, this.2.2⟩

/-- Memory as loaded has the canonical form. -/
theorem ofImage_wf (image : List Word) : (Memory.ofImage image).wf = true := by
  simp only [Memory.wf, Memory.ofImage, Bool.and_eq_true, List.all_eq_true, bne_iff_ne]
  refine ⟨imageCells_rise image 0, fun c hc => ?_⟩
  have := mem_imageCells hc
  exact ⟨decide_eq_true (by simpa using this.2.1), this.2.2⟩

theorem cellsGet_imageCells_below (image : List Word) {i k : Nat} (h : k < i) : cellsGet k (imageCells i image) = none := by
  induction image generalizing i with
  | nil => rfl
  | cons v rest ih =>
    unfold imageCells
    split_ifs
    · exact ih (by omega)
    · rw [cellsGet, if_neg (by omega)]; exact ih (by omega)

theorem getD_cellsGet_imageCells (image : List Word) (i k : Nat) (h : k < image.length) :
    (cellsGet (i + k) (imageCells i image)).getD Memory.unlisted = image[k] := by
  induction image generalizing i k with
  | nil => simp at h
  | cons v rest ih =>
    cases k with
    | zero =>
      unfold imageCells
      split_ifs with hv
      · rw [cellsGet_imageCells_below rest (by omega)]; exact hv.symm
      · simp [cellsGet]
    | succ k =>
      have hk : k < rest.length := by simpa using h
      have := ih (i + 1) k hk
      rw [show i + 1 + k = i + (k + 1) by omega] at this
      unfold imageCells
      split_ifs with hv
      · simpa using this
      · rw [cellsGet, if_neg (by omega)]; simpa using this

/-- Memory as loaded holds the image, value for value (R29). -/
theorem ofImage_read (image : List Word) (i : Nat) (h : i < image.length) : (Memory.ofImage image).read i = image[i] := by
  have := getD_cellsGet_imageCells image 0 i h
  simpa [Memory.read, Memory.ofImage] using this

end Sys2Proof.Machine
end

