-- ==== Sys2Proof/Laws/Exec.lean ====
section
/-! SUPPORT. What each instruction and a whole step can do, once: the inversion lemmas from which invariants and frames
follow by cases. -/

namespace Sys2Proof.Machine

/-- IN, whatever it does (R73). -/
theorem execInput_next {b c : Word} {s t : State} (h : execInput b c s = .next t) :
    (s.mem.inRange b = false ∧ t = s.raise .indexError b) ∨
    (s.mem.inRange b = true ∧
      ((∃ v u, portIn c s = .done v u ∧ t = (u.writeCell b.toNat v).goTo s.nextPc) ∨
       (portIn c s = .waits ∧ t = s) ∨
       (c = 0 ∧ portIn c s = .ioError s ∧ t = s.raise .ioError 0))) := by
  unfold execInput at h
  cases hi : indexOperand s.mem b with
  | none => simp only [hi, Host.Outcome.next.injEq] at h; exact Or.inl ⟨by simpa using hi, h.symm⟩
  | some i =>
    obtain ⟨hr, rfl⟩ := (indexOperand_eq_some ..).mp hi
    refine Or.inr ⟨hr, ?_⟩
    cases hp : portIn c s with
    | done v u => simp only [hi, hp, Host.Outcome.next.injEq] at h; exact Or.inl ⟨v, u, rfl, h.symm⟩
    | waits => simp only [hi, hp, Host.Outcome.next.injEq] at h; exact Or.inr (Or.inl ⟨rfl, h.symm⟩)
    | ioError u =>
      simp only [hi, hp, Host.Outcome.next.injEq] at h
      obtain ⟨rfl, rfl⟩ := portIn_ioError hp
      exact Or.inr (Or.inr ⟨rfl, rfl, h.symm⟩)
    | noDisplay => simp [hi, hp] at h
    | noPixel => simp [hi, hp] at h

/-- OUT, whatever it does (R76). -/
theorem execOutput_next {a c : Word} {s t : State} (h : execOutput a c s = .next t) :
    (s.mem.inRange a = false ∧ t = s.raise .indexError a) ∨
    (s.mem.inRange a = true ∧
      ((∃ u, portOut c (s.mem.read a.toNat) s = .done () u ∧ t = u.goTo s.nextPc) ∨
       (portOut c (s.mem.read a.toNat) s = .waits ∧ t = s) ∨
       (∃ u, portOut c (s.mem.read a.toNat) s = .ioError u ∧ t = u.raise .ioError c))) := by
  unfold execOutput at h
  cases hi : indexOperand s.mem a with
  | none => simp only [hi, Host.Outcome.next.injEq] at h; exact Or.inl ⟨by simpa using hi, h.symm⟩
  | some i =>
    obtain ⟨hr, rfl⟩ := (indexOperand_eq_some ..).mp hi
    refine Or.inr ⟨hr, ?_⟩
    cases hp : portOut c (s.mem.read a.toNat) s with
    | done v u => simp only [hi, hp, Host.Outcome.next.injEq] at h; exact Or.inl ⟨u, rfl, h.symm⟩
    | waits => simp only [hi, hp, Host.Outcome.next.injEq] at h; exact Or.inr (Or.inl ⟨rfl, h.symm⟩)
    | ioError u => simp only [hi, hp, Host.Outcome.next.injEq] at h; exact Or.inr (Or.inr ⟨u, rfl, h.symm⟩)
    | noDisplay => simp [hi, hp] at h
    | noPixel => simp [hi, hp] at h

/-- SUBLEQ, whatever it does (R85): it always answers a next state. -/
theorem execSubleq_eq (a b c : Word) (s : State) :
    execSubleq a b c s = .next (
      if s.mem.inRange a = false then s.raise .indexError a
      else if s.mem.inRange b = false then s.raise .indexError b
      else
        (s.writeCell a.toNat (difference (s.mem.read a.toNat) (s.mem.read b.toNat))).goTo
          (if notPositive (difference (s.mem.read a.toNat) (s.mem.read b.toNat)) then c else s.nextPc)) := by
  unfold execSubleq
  cases ha : s.mem.inRange a <;> cases hb : s.mem.inRange b <;> simp [indexOperand, ha, hb]

/-- A step, whatever it does (R67): none is taken, or the run check stops the machine, or the instruction at pc runs. -/
theorem step_cases (s : State) :
    (s.stop.status ≠ .running ∧ step s = .next s) ∨
    (s.stop.status = .running ∧ s.mem.inRunRange s.pc = false ∧ step s = .next (s.stopNormally .haltBounds)) ∨
    (s.stop.status = .running ∧ s.mem.inRunRange s.pc = true ∧
      step s = exec (decode (s.fetchCell 0) (s.fetchCell 1) (s.fetchCell 2)) s) := by
  unfold step startStep
  cases hs : s.stop.status <;> cases hr : s.mem.inRunRange s.pc <;> simp

end Sys2Proof.Machine
end

