-- ==== Sys2Proof/Laws/PerInstr.lean ====
section
/-! SUPPORT. The family stated per instruction: the triple of a well-formed instruction satisfies the exclusive condition
that selects its operation (R53). -/

/-- The condition of R53 that selects `i`'s operation holds of the triple `i` encodes to. -/
def Sys2Proof.Laws.EncodedCondition.Statement (i : Sys2Proof.Instr) : Prop :=
  i.wf = true →
    let a := (Sys2Proof.encode i).1
    let b := (Sys2Proof.encode i).2.1
    let c := (Sys2Proof.encode i).2.2
    match i with
    | .input _ _ => a = -1
    | .output _ _ => a ≠ -1 ∧ b = -1
    | .halt _ _ => a ≠ -1 ∧ b ≠ -1 ∧ c = -1
    | .subleq _ _ _ => a ≠ -1 ∧ b ≠ -1 ∧ c ≠ -1

theorem Sys2Proof.Laws.EncodedCondition.input (dest port : Sys2Proof.Word) :
    Sys2Proof.Laws.EncodedCondition.Statement (.input dest port) := fun _ => rfl

theorem Sys2Proof.Laws.EncodedCondition.output (src port : Sys2Proof.Word) :
    Sys2Proof.Laws.EncodedCondition.Statement (.output src port) := by
  intro h
  simp only [Sys2Proof.Instr.wf, bne_iff_ne] at h
  exact ⟨h, rfl⟩

theorem Sys2Proof.Laws.EncodedCondition.halt (a b : Sys2Proof.Word) :
    Sys2Proof.Laws.EncodedCondition.Statement (.halt a b) := by
  intro h
  simp only [Sys2Proof.Instr.wf, Bool.and_eq_true, bne_iff_ne] at h
  exact ⟨h.1, h.2, rfl⟩

theorem Sys2Proof.Laws.EncodedCondition.subleq (a b c : Sys2Proof.Word) :
    Sys2Proof.Laws.EncodedCondition.Statement (.subleq a b c) := by
  intro h
  simp only [Sys2Proof.Instr.wf, Bool.and_eq_true, bne_iff_ne] at h
  exact ⟨h.1.1, h.1.2, h.2⟩
end

