-- ==== Sys2Proof/Tests/Slice0.lean ====
section
/-! SUPPORT. The model's own tests, expected values taken from 95_test_vectors.md and the rules' worked examples, and for
every statement with hypotheses a witness that meets them. -/

namespace Sys2Proof.Tests

open Sys2Proof.Machine

/-! The machine after loading a program and reset, and one step of it. -/

/-- The machine with `image` loaded and reset, other parameters by the convention of 95_test_vectors.md. -/
def loaded (image : List Word) : State := State.applyReset { State.reset with cfg := { Config.default with image := image } }

/-- The state one step gives. -/
def after (s : State) : Option State := match step s with | .next t => some t | _ => none

/-- The state of an answer. -/
def nextOf (o : Host.Outcome State Fault Refusal) : Option State := match o with | .next t => some t | _ => none

/-- The machine with a stream of supplied bytes. -/
def withBytes (s : State) (bytes : List Byte) : State := { s with env := { s.env with charIn := bytes } }

/-- The machine in a deployment without a display. -/
def headless (s : State) : State := { s with cfg := { s.cfg with hasDisplay := false } }

/-! WellFormed refuses the sentinel where an operation tested earlier would take it (R53); Memory and Config refuse a broken
form. -/

theorem test_wf_refuses :
    (Instr.output (-1) 0).wf = false ∧ (Instr.halt (-1) 0).wf = false ∧ (Instr.halt 0 (-1)).wf = false ∧
    (Instr.subleq (-1) 0 0).wf = false ∧ (Instr.subleq 0 (-1) 0).wf = false ∧ (Instr.subleq 0 0 (-1)).wf = false := by decide

theorem test_memory_wf_refuses :
    (Memory.mk 3 [(1, 5), (0, 5)]).wf = false ∧ (Memory.mk 3 [(1, 5), (1, 6)]).wf = false ∧
    (Memory.mk 3 [(3, 5)]).wf = false ∧ (Memory.mk 3 [(0, 0)]).wf = false := by decide

theorem test_config_wf_refuses :
    (Config.wf { Config.default with rasterW := 0 }) = false ∧ (Config.wf { Config.default with rasterH := 0 }) = false ∧
    (Config.wf { Config.default with faultExit := 0 }) = false ∧ Config.default.wf = true := by decide

/-! Decoding, one word per family written out from R50 and R62, and the sentinel combinations of R54. -/

theorem test_decode_in : decodeCells [0xFFFFFFFFFFFFFFFF, 0x6, 0x0] = .ok (.input 6 0, []) := by decide
theorem test_decode_out : decodeCells [0x6, 0xFFFFFFFFFFFFFFFF, 0x0] = .ok (.output 6 0, []) := by decide
theorem test_decode_halt : decodeCells [0x0, 0x0, 0xFFFFFFFFFFFFFFFF] = .ok (.halt 0 0, []) := by decide
theorem test_decode_subleq : decodeCells [0x9, 0xA, 0x6, 0x7] = .ok (.subleq 9 10 6, [7]) := by decide
theorem test_decode_truncated : decodeCells [0x9, 0xA] = .error .truncated := by decide
theorem test_decode_sentinels :
    decode (-1) (-1) (-1) = .input (-1) (-1) ∧ decode 5 (-1) (-1) = .output 5 (-1) ∧ decode (-1) 5 (-1) = .input 5 (-1) := by
  decide

/-! One step of each instruction. -/

/-- V40: the byte 0x78 is stored as 120 and consumed. -/
theorem test_in_port0 :
    (after (withBytes (loaded [-1, 6, 0, 6, -1, 0, 0]) [0x78, 0x79])).map
      (fun t => (t.mem.read 6, t.pc, t.stop, t.env.charIn)) = some (120, 3, StopRecord.running, [0x79]) := by decide

/-- V13: the sample 0x80000000 is stored sign-extended; pc + 3 is outside the run range. -/
theorem test_in_port2 :
    (after { loaded [-1, 1, 2] with env := { Env.initial with randoms := [0x80000000] } }).map
      (fun t => ((t.mem.read 1).toInt, t.pc, t.stop)) = some (-2147483648, 3, ⟨.halted, .haltBounds, 0⟩) := by decide

/-- V50: `char_out` gets 0x41. -/
theorem test_out_port0 :
    (after (loaded [6, -1, 0, 0, 0, -1, 65])).map (fun t => (t.env.charOut, t.pc, t.stop.status)) =
      some ([0x41], 3, .running) := by decide

/-- V53: (128, 64, 0) at (0, 0), cursor (1, 0). -/
theorem test_out_port1 :
    (after (loaded [6, -1, 1, 0, 0, -1, 64])).map (fun t => (t.io.raster.painted, t.io.curX, t.io.curY, t.pc)) =
      some ([(0, ⟨128, 64, 0⟩)], 1, 0, 3) := by decide

/-- V61: HALT does not check its operands. -/
theorem test_halt :
    (after (loaded [1000000, -7, -1])).map (fun t => (t.pc, t.stop)) = some (0, ⟨.halted, .haltInstr, 0⟩) := by decide

/-- V22: INT64_MIN - 1 wraps to INT64_MAX; no branch. -/
theorem test_subleq_wraps :
    (after (loaded [9, 10, 6, 0, 0, -1, 0, 0, -1, 0x8000000000000000, 1])).map
      (fun t => ((t.mem.read 9).toInt, t.pc, t.stop)) = some (9223372036854775807, 3, StopRecord.running) := by decide

/-- V24: the instruction's own c cell is written, the branch goes to the old c. -/
theorem test_subleq_latches :
    (after (loaded [2, 3, 7, 9, 0, 0, 0, 0])).map (fun t => ((t.mem.read 2).toInt, t.pc, t.stop)) =
      some (-2, 7, ⟨.halted, .haltBounds, 0⟩) := by decide

/-! Faults, waiting, the controller, reset. -/

/-- V11, V45: IN with its index out of range faults and does not wait. -/
theorem test_in_bad_index :
    (after (loaded [-1, -1, 0])).map (fun t => (t.pc, t.stop)) = some (0, ⟨.faulted, .indexError, -1⟩) := by decide

/-- V29: with both indices bad, a is reported. -/
theorem test_subleq_bad_indices :
    (after (loaded [100, -7, 0])).map (fun t => (t.pc, t.stop)) = some (0, ⟨.faulted, .indexError, 100⟩) := by decide

/-- V42: only left held gives 130; with a close request, 27. -/
theorem test_keys :
    keyCode ⟨false, false, true, false, false, false⟩ = 130 ∧
    (after { loaded [-1, 3, 1, 0, 0, 0] with io := ⟨0, 0, ⟨[], 0⟩, true⟩ }).map (fun t => t.mem.read 3) = some 27 := by
  decide

/-- G2 to G5: the default gradient of ACCENT = (255, 128, 0). -/
theorem test_gradient :
    colourOf Config.default 64 = ⟨128, 64, 0⟩ ∧ colourOf Config.default 127 = ⟨254, 127, 0⟩ ∧
    colourOf Config.default 128 = ⟨255, 128, 1⟩ ∧ colourOf Config.default 191 = ⟨255, 191, 127⟩ := by decide

/-- V31a: pc = SIZE - 3 is in the run range. -/
theorem test_run_range_top :
    (after (loaded [3, 3, 4, 0, 1, 2, -1])).map (fun t => (t.pc, t.stop)) = some (4, StopRecord.running) := by decide

/-- V71, V72: a short image halts at once; a display that fails to initialise faults before any step. -/
theorem test_reset :
    (loaded [5, -1]).stop = ⟨.halted, .haltBounds, 0⟩ ∧
    (applyEvent .reset { loaded [5, -1] with env := { Env.initial with initFails := true } }).stop =
      ⟨.faulted, .displayInitError, 0⟩ := by decide

/-- S1: the source's instance of the loader's round trip. -/
theorem test_loader :
    loadImage (some "3 -1 0\n-7  9223372036854775807".toList) = .ok [3, -1, 0, -7, 9223372036854775807] ∧
    loadImage (some "9223372036854775808".toList) = .error .formatError := by decide

/-- R20: the codes of the causes. -/
theorem test_cause_codes :
    [Cause.none, .haltInstr, .haltBounds, .indexError, .ioError, .displayInitError].map Cause.code = [0, 1, 2, 3, 4, 5] := by
  decide

/-- The table's words, placed where the next step fetches, run as the first instruction (log 3). -/
theorem test_fetch_word :
    (after (State.reset.withFetchWord 192 0xFFFFFFFFFFFFFFFF)) = some (State.reset.withFetchWord 192 0xFFFFFFFFFFFFFFFF) ∧
    ((after (State.reset.withFetchWord 192 0xFFFFFFFFFFFFFFFF0000000000000000)).map fun t => t.env.charOut) = some [0] ∧
    ((after (State.reset.withFetchWord 192 0xFFFFFFFFFFFFFFFF00000000000000000000000000000000)).map fun t => t.stop.cause) =
      some .haltInstr ∧
    ((after (State.reset.withFetchWord 192 0)).map fun t => (t.pc, t.stop.status)) = some (0, .running) := by decide

/-! Witnesses: for each statement with hypotheses, values that meet them, at the edge of a range where there is one. -/

theorem witness_DecodeOfEncodedInstructionIsIt :
    (Instr.input (-1) (-1)).wf = true ∧ (Instr.output (-2) (-1)).wf = true ∧ (Instr.halt 0 (-2)).wf = true ∧
    (Instr.subleq (-2) 0 1).wf = true := by decide

theorem witness_StepRunsTheFetchedInstruction :
    let s := loaded [7, 9, -1]
    s.stop.status = .running ∧ 0 ≤ s.pc.toInt ∧ s.pc.toInt ≤ (s.mem.size : Int) - 3 ∧ (Instr.halt 7 9).wf = true ∧
    encode (.halt 7 9) = (s.mem.read s.pc.toNat, s.mem.read (s.pc.toNat + 1), s.mem.read (s.pc.toNat + 2)) := by decide

theorem witness_StoppedMachineChangesNothing :
    State.reset.stop.status = .halted ∧ (State.reset.raise .indexError 7).stop.status = .faulted := by decide

theorem witness_StepOutsideTheRunRangeStops :
    let s := { loaded [3, 3, 4, 0] with pc := 2 }
    let t := { loaded [3, 3, 4, 0] with pc := -1 }
    s.stop.status = .running ∧ (s.mem.size : Int) - 3 < s.pc.toInt ∧ t.stop.status = .running ∧ t.pc.toInt < 0 := by decide

theorem witness_RunRangeIsWhereTheTripleFits :
    (Memory.mk (2 ^ 63 - 1) []).size < 2 ^ 63 ∧ (Memory.mk 2 []).size < 3 ∧ (Memory.mk 3 []).size = 3 := by decide

theorem witness_PcPlusThreeDoesNotOverflow :
    (Memory.mk (2 ^ 63 - 1) []).size < 2 ^ 63 ∧ (Memory.mk (2 ^ 63 - 1) []).inRunRange 0x7FFFFFFFFFFFFFFC = true := by decide

theorem witness_SubleqSubtractsStoresAndBranches :
    let s := loaded [9, 10, 6, 0, 0, -1, 0, 0, -1, 5, 3]
    s.mem.inRange 0 = true ∧ s.mem.inRange 10 = true := by decide

theorem witness_SubleqBadIndexFaults :
    let s := loaded [6, 1, 0, 0, 0, 0]
    s.mem.inRange 6 = false ∧ s.mem.inRange (-1) = false ∧ s.mem.inRange 5 = true := by decide

theorem witness_SubleqFrame :
    let s := loaded [3, 4, 6, 10, 4, 0]
    (nextOf (exec (.subleq 3 4 6) s)).isSome = true ∧ indexOperand s.mem 3 ≠ some 4 := by decide

theorem witness_DifferenceWrapsAroundSilently :
    let max : Word := 0x7FFFFFFFFFFFFFFF
    let min : Word := 0x8000000000000000
    (-2 ^ 63 ≤ (-1 : Word).toInt - max.toInt ∧ (-1 : Word).toInt - max.toInt ≤ 2 ^ 63 - 1) ∧
    2 ^ 63 - 1 < (0 : Word).toInt - min.toInt ∧ min.toInt - (1 : Word).toInt < -2 ^ 63 := by decide

theorem witness_BranchFollowsTheWrappedSign :
    let s := loaded [3, 4, 6, 0, 1, 0x8000000000000000]
    s.mem.inRange 3 = true ∧ s.mem.inRange 4 = true ∧ s.mem.inRange 5 = true ∧
    s.mem.read 3 - s.mem.read 3 = 0 ∧ (s.mem.read 3 - s.mem.read 5).msb = true ∧
    1 ≤ (s.mem.read 4 - s.mem.read 3).toInt ∧ (s.mem.read 5 - s.mem.read 4).toInt = 2 ^ 63 - 1 := by decide

theorem witness_SubleqOfACellWithItselfClearsAndJumps : (loaded [4, 4, 3, 0, 99, -1]).mem.inRange 4 = true := by decide

theorem witness_SubleqOverItsOwnTargetJumpsToTheOldTarget :
    let s := loaded [2, 3, 7, 9, 0, 0, 0, 0]
    s.stop.status = .running ∧ s.mem.inRunRange s.pc = true ∧ s.mem.size < 2 ^ 63 ∧ (Instr.subleq 2 3 7).wf = true ∧
    (2 : Word) = s.pc + 2 ∧ s.mem.inRange 3 = true ∧ s.mem.read s.pc.toNat = 2 ∧ s.mem.read (s.pc.toNat + 1) = 3 ∧
    s.mem.read (s.pc.toNat + 2) = 7 ∧ (difference 7 (s.mem.read (3 : Word).toNat)).toInt ≤ 0 := by decide

theorem witness_InFromAnUnlistedPortStoresZero :
    (loaded [-1, 3, 7, 55, 0, 0]).mem.inRange 5 = true ∧ (-1 : Word) ≠ 0 ∧ (-1 : Word) ≠ 1 ∧ (-1 : Word) ≠ 2 ∧
    (3 : Word) ≠ 0 ∧ (3 : Word) ≠ 1 ∧ (3 : Word) ≠ 2 := by decide

theorem witness_InFromPortZeroStoresTheNextByte :
    let s := withBytes (loaded [-1, 2, 0]) [0xFF]
    s.mem.inRange 2 = true ∧ s.env.charInCond ≠ .failed ∧ s.env.charIn = 0xFF :: [] := by decide

theorem witness_InFromPortZeroWaitsForAByte :
    let s := loaded [-1, 2, 0]
    s.mem.inRange 2 = true ∧ s.env.charInCond = .ready ∧ s.env.charIn = [] := by decide

theorem witness_InFromPortZeroFaultsWhenItCannotRead :
    let s := applyEvent (.setInput .failed) (loaded [-1, 2, 0])
    let t := applyEvent (.setInput .ended) (loaded [-1, 2, 0])
    s.mem.inRange 2 = true ∧ s.env.charInCond = .failed ∧
    t.mem.inRange 2 = true ∧ t.env.charInCond = .ended ∧ t.env.charIn = [] ∧ t.cfg.eofPolicy = .ioError := by decide

theorem witness_InAtEndOfStreamFollowsTheEofPolicy :
    let t := applyEvent (.setInput .ended) (loaded [-1, 2, 0])
    let u := { t with cfg := { t.cfg with eofPolicy := .returns (-1) } }
    let w := { t with cfg := { t.cfg with eofPolicy := .waits } }
    u.mem.inRange 2 = true ∧ u.env.charInCond = .ended ∧ u.env.charIn = [] ∧ u.cfg.eofPolicy = .returns (-1) ∧
    w.mem.inRange 2 = true ∧ w.env.charInCond = .ended ∧ w.env.charIn = [] ∧ w.cfg.eofPolicy = .waits := by decide

theorem witness_InFromPortOneStoresAKeyCode :
    let s := loaded [-1, 3, 1, 0, 0, 0]
    let t := applyEvent (.setKey .left true) s
    s.mem.inRange 5 = true ∧ s.cfg.hasDisplay = true ∧ s.io.quit = false ∧
    (∀ k ∈ [Key.up, .down, .left, .right, .enter, .escape], isKeyHeld s.env.keys k = false) ∧
    t.io.quit = false ∧ isKeyHeld t.env.keys .left = true ∧
    (State.presentAndPoll (applyEvent (.queueEvent .closeRequest) s)).io.quit = true := by decide

theorem witness_InFromPortTwoStoresASignedSample :
    let s := loaded [-1, 3, 2, 0, 0, 0]
    s.mem.inRange 3 = true ∧ s.cfg.hasDisplay = true ∧ s.env.randoms = [] ∧
    (applyEvent (.supplyRandom 0xFFFFFFFF) s).env.randoms = 0xFFFFFFFF :: [] := by decide

theorem witness_InBadIndexFaultsBeforeThePort :
    (loaded [-1, 6, 0, 0, 0, 0]).mem.inRange 6 = false ∧ (loaded [-1, 6, 0, 0, 0, 0]).mem.inRange (-1) = false := by decide

theorem witness_InFrame :
    let s := withBytes (loaded [-1, 3, 0, 0, 0, 0]) [1]
    (nextOf (exec (.input 3 0) s)).isSome = true ∧ indexOperand s.mem 3 ≠ some 2 := by decide

theorem witness_PortInputsLieInTheirRanges :
    let s := applyEvent (.supplyRandom 5) (withBytes (loaded [-1, 3, 0]) [255])
    portIn 0 s = .done 255 s.consumeChar ∧ portIn 1 s = .done 0 s ∧ portIn 3 s = .done 0 s ∧
    portIn 2 s = .done 5 (withBytes (loaded [-1, 3, 0]) [255]) := by decide

theorem witness_OutToPortZeroEmitsTheByte :
    let s := loaded [6, -1, 0, 0, 0, -1, 255]
    s.mem.inRange 6 = true ∧ s.env.charOutFails = false ∧ 0 ≤ (s.mem.read (6 : Word).toNat).toInt ∧
    (s.mem.read (6 : Word).toNat).toInt ≤ 255 ∧ (s.mem.read (2 : Word).toNat).toInt = 0 := by decide

theorem witness_OutToPortZeroDropsOtherValues :
    let s := loaded [6, -1, 0, 0, 0, -1, 256]
    s.mem.inRange 6 = true ∧ 255 < (s.mem.read (6 : Word).toNat).toInt ∧
    s.mem.inRange 5 = true ∧ (s.mem.read (5 : Word).toNat).toInt < 0 := by decide

theorem witness_OutToPortZeroFaultsWhenItCannotWrite :
    let s := applyEvent (.setOutput true) (loaded [6, -1, 0, 0, 0, -1, 65])
    s.mem.inRange 6 = true ∧ s.env.charOutFails = true ∧ 0 ≤ (s.mem.read (6 : Word).toNat).toInt ∧
    (s.mem.read (6 : Word).toNat).toInt ≤ 255 := by decide

theorem witness_OutToPortOnePaintsAndAdvancesTheCursor :
    let s := loaded [6, -1, 1, 0, 0, -1, 64]
    let t := { s with io := { s.io with curX := 1, curY := 1 } }
    let u := { s with io := { s.io with curX := 1 } }
    s.mem.inRange 6 = true ∧ s.cfg.hasDisplay = true ∧ s.io.curX < s.cfg.rasterW ∧ s.io.curY < s.cfg.rasterH ∧
    s.io.curX + 1 < s.cfg.rasterW ∧ (1 < s.cfg.rasterW ∧ 1 ≠ s.io.curX) ∧
    u.io.curX < u.cfg.rasterW ∧ u.io.curX + 1 = u.cfg.rasterW ∧ u.io.curY + 1 < u.cfg.rasterH ∧
    t.io.curX < t.cfg.rasterW ∧ t.io.curY < t.cfg.rasterH ∧ t.io.curX + 1 = t.cfg.rasterW ∧
    t.io.curY + 1 = t.cfg.rasterH := by decide

theorem witness_OutToPortTwoPresentsAndPolls :
    let s := loaded [6, -1, 2, 0, 0, -1, 12345]
    s.mem.inRange 6 = true ∧ s.cfg.hasDisplay = true := by decide

theorem witness_OutToAnUnlistedPortOnlyAdvances :
    (loaded [0, -1, -1]).mem.inRange 0 = true ∧ (-1 : Word) ≠ 0 ∧ (-1 : Word) ≠ 1 ∧ (-1 : Word) ≠ 2 := by decide

theorem witness_OutBadIndexFaultsBeforeThePort : (loaded [7, -1, -1]).mem.inRange 7 = false := by decide

theorem witness_OutFrame :
    let s := loaded [6, -1, 2, 0, 0, -1, 65]
    (nextOf (exec (.output 6 0) s)).isSome = true ∧ (nextOf (exec (.output 6 1) s)).isSome = true ∧
    (nextOf (exec (.output 6 2) s)).isSome = true ∧ (nextOf (exec (.output 6 3) s)).isSome = true := by decide

theorem witness_DisplayPortsAreRefusedWithoutADisplay :
    (headless (loaded [0, -1, 1])).cfg.hasDisplay = false ∧ (headless (loaded [0, -1, 1])).mem.inRange 0 = true := by decide

theorem witness_GradientFollowsTheFormula :
    0 ≤ (255 : Word).toInt ∧ (255 : Word).toInt ≤ 255 ∧ Config.default.pixNarrow = .lowByte ∧
    Config.default.gradient = .floor ∧ (127 : Byte).toNat ≤ 127 ∧ 128 ≤ (128 : Byte).toNat := by decide

theorem witness_GradientEndPoints : Config.default.gradient = .floor := by decide

theorem witness_CursorWalksTheRasterInRowMajorOrder :
    let io : Controller := ⟨1, 1, ⟨[], 0⟩, false⟩
    io.curX < Config.default.rasterW ∧ io.curY < Config.default.rasterH := by decide

theorem witness_CursorReturnsAfterAWholeRaster :
    let io : Controller := ⟨1, 0, ⟨[], 0⟩, false⟩
    io.curX < Config.default.rasterW ∧ io.curY < Config.default.rasterH := by decide

theorem witness_UnlistedPortsReadZeroAndIgnoreWrites :
    (-1 : Word) ≠ 0 ∧ (-1 : Word) ≠ 1 ∧ (-1 : Word) ≠ 2 ∧ (3 : Word) ≠ 0 ∧ (3 : Word) ≠ 1 ∧ (3 : Word) ≠ 2 := by decide

theorem witness_OnlyPortZeroInputWaits : portIn 0 (loaded [-1, 0, 0]) = .waits := by decide

theorem witness_OnlyPortZeroFails :
    let s := applyEvent (.setInput .failed) (loaded [-1, 0, 0])
    let t := applyEvent (.setOutput true) (loaded [-1, 0, 0])
    portIn 0 s = .ioError s ∧ portOut 0 255 t = .ioError (t.failedPut 255) := ⟨by decide, rfl⟩

theorem witness_OnlySubleqBranches :
    (nextOf (exec (.subleq 3 3 (-2)) (loaded [3, 3, -2, 5]))).isSome = true := by decide

theorem witness_OnlyInAndSubleqWriteMemory :
    ((nextOf (exec (.subleq 3 3 (-2)) (loaded [3, 3, -2, 5]))).map fun t => t.mem.read 3) = some 0 ∧
    (loaded [3, 3, -2, 5]).mem.read 3 ≠ 0 ∧
    ((nextOf (exec (.input 3 7) (loaded [-1, 3, 7, 5]))).map fun t => t.mem.read 3) = some 0 := by decide

theorem witness_FaultsArePrecise :
    (loaded [7, -1, -1]).stop.status = .running ∧
    ((after (loaded [7, -1, -1])).map fun t => t.stop.status) = some .faulted := by decide

theorem witness_inv (image : List Word) (h : (loaded image).cfg.wf = true) (hm : (loaded image).mem.wf = true)
    (hs : (loaded image).mem.size = (loaded image).cfg.image.length)
    (hc : cursorInRaster (loaded image).cfg (loaded image).io = true)
    (hr : (loaded image).io.raster.wf (loaded image).cfg = true) (hp : (loaded image).stopWf = true) :
    (loaded image).Inv := ⟨h, hm, hs, hc, hr, hp⟩

/-- A RUNNING machine that meets the invariant, and takes a step. -/
theorem witness_EveryStepKeepsTheInvariant :
    (loaded [3, 3, 4, 0, 1, 2, -1]).Inv ∧ (loaded [3, 3, 4, 0, 1, 2, -1]).stop.status = .running ∧
    (loaded [3, 3, 4, 0, 1, 2, -1]).cfg.hasDisplay = true ∧ (after (loaded [3, 3, 4, 0, 1, 2, -1])).isSome = true :=
  ⟨witness_inv _ (by decide) (by decide) (by decide) (by decide) (by decide) (by decide), by decide, by decide, by decide⟩

theorem witness_EveryStepAnswersANextState :
    (loaded [6, -1, 1, 0, 0, -1, 64]).Inv ∧ (loaded [6, -1, 1, 0, 0, -1, 64]).cfg.hasDisplay = true :=
  ⟨witness_inv _ (by decide) (by decide) (by decide) (by decide) (by decide) (by decide), by decide⟩

theorem witness_EveryEnvironmentMoveKeepsTheInvariant : (loaded [0, 0, -1]).Inv :=
  witness_inv _ (by decide) (by decide) (by decide) (by decide) (by decide) (by decide)

theorem witness_ReachableStatesMeetTheSpecsInvariants :
    Reachable (loaded [3, 3, 4, 0, 1, 2, -1]) ∧ (loaded [3, 3, 4, 0, 1, 2, -1]).stop.status = .running ∧
    Reachable (loaded []) ∧ (loaded []).stop.status ≠ .running :=
  ⟨.reset _ (by decide), by decide, .reset _ (by decide), by decide⟩

theorem witness_ResetLoadsTheImageAndStarts :
    (3 ≤ [(7 : Word), 9, -1].length ∧ (0 : Nat) < [(7 : Word), 9, -1].length) ∧ [(5 : Word), -1].length < 3 ∧
    State.reset.displayInitFails = false ∧ (applyEvent (.setInit true) State.reset).displayInitFails = true := by decide

theorem witness_EnvironmentMovesLeaveTheMachineAlone : EnvEvent.supplyByte 7 ≠ .reset := by decide

/-- Two states that differ in the cursor and in what was emitted. -/
theorem witness_ProgramsCannotSeeTheRaster :
    let s := loaded [6, -1, 1, 0, 0, -1, 64]
    let t := { s with io := { s.io with curX := 1 }, env := { s.env with charOut := [65] } }
    s.Inv ∧ t.Inv ∧ SameToProgram s t ∧ s ≠ t ∧ (after s).isSome = true :=
  ⟨witness_inv _ (by decide) (by decide) (by decide) (by decide) (by decide) (by decide),
    ⟨by decide, by decide, by decide, by decide, by decide, by decide⟩,
    ⟨rfl, rfl, rfl, rfl, rfl, rfl, rfl, rfl, rfl, rfl, rfl, rfl⟩, by decide, by decide⟩

theorem witness_LoaderErrorsStartNoRun :
    ['x'] ∈ tokensFrom [] ['1', ' ', 'x'] ∧ tokenWord ['x'] = none := by decide

theorem witness_ExitCodeTellsFaultsFromNormalEndings :
    State.reset.cfg.wf = true ∧ State.reset.stop.status = .halted ∧
    (State.reset.raise .indexError 7).stop.status = .faulted ∧ (loaded [0, 0, -1]).stop.status = .running := by decide

end Sys2Proof.Tests
end

section

namespace Sys2Proof.Machine

/-- Settles O25: the seven codes of R6 and R105, each read off its own branch of `codeOfKey` (the last off
`closeRequestCode`). -/
theorem keyCodesAreTheFixedOnes : Obligations.KeyCodesAreTheFixedOnes :=
  ⟨rfl, rfl, rfl, rfl, rfl, rfl, rfl⟩

end Sys2Proof.Machine
end

section

/-! The state family (10_state.md): each operation of the model keeps the invariant of R30, so a step, a reset and a move
of the environment do. -/

namespace Sys2Proof.Machine

/-! The run range and the stop record. -/

theorem toInt_add_three_of_inRunRange {m : Memory} {pc : Word} (hm : m.size < 2 ^ 63) (h : m.inRunRange pc = true) :
    (pc + 3).toInt = pc.toInt + 3 := by
  obtain ⟨h0, h3⟩ := (inRunRange_iff m pc).mp h
  rw [BitVec.toInt_add, show (3 : Word).toInt = 3 from rfl]
  exact Int.bmod_eq_of_le (by omega) (by omega)

/-- Settles O10: the sum is exact because it is at most SIZE, and SIZE is below 2^63. -/
theorem pcPlusThreeDoesNotOverflow : Obligations.PcPlusThreeDoesNotOverflow := by
  intro m pc hm h
  have hsum := toInt_add_three_of_inRunRange hm h
  exact ⟨hsum, hsum ▸ ((inRunRange_iff m pc).mp h).2⟩

/-- `stopAt` by the run range of R63. -/
theorem stopAt_eq (s : State) (pc : Word) :
    s.stopAt pc = if s.mem.inRunRange pc then s.stop else ⟨.halted, .haltBounds, 0⟩ := by
  unfold State.stopAt
  refine if_congr ?_ rfl rfl
  rw [inRunRange_iff]
  omega

/-- A legal stop record of a RUNNING machine is R20's, and pc is in the run range. -/
theorem State.Inv.of_running {s : State} (h : s.Inv) (hr : s.stop.status = .running) :
    s.stop = StopRecord.running ∧ s.mem.inRunRange s.pc = true := by
  have hw := h.stopWf
  rcases hs : s.stop with ⟨status, cause, info⟩
  obtain rfl : status = .running := by simpa [hs] using hr
  cases cause <;> simp_all [State.stopWf]

/-- A machine that is not RUNNING takes no step (R19): of the three cases of a step only the first is left. -/
theorem step_of_not_running {s : State} (h : s.stop.status ≠ .running) : step s = .next s := by
  rcases step_cases s with ⟨-, e⟩ | ⟨hr, -⟩ | ⟨hr, -⟩
  · exact e
  · exact absurd hr h
  · exact absurd hr h

/-- Settles O7: neither HALTED nor FAULTED is RUNNING. -/
theorem stoppedMachineChangesNothing : Obligations.StoppedMachineChangesNothing := by
  intro s h
  apply step_of_not_running
  rcases h with h | h <;> simp [h]

/-! Memory: its size as loaded, and who writes it. -/

@[simp] theorem ofImage_size (image : List Word) : (Memory.ofImage image).size = image.length := rfl

/-- SUBLEQ, case by case (R85): `a` out of range, `b` out of range, or the difference stored and the branch. -/
theorem execSubleq_next {a b c : Word} {s t : State} (h : execSubleq a b c s = .next t) :
    (s.mem.inRange a = false ∧ t = s.raise .indexError a) ∨
    (s.mem.inRange a = true ∧ s.mem.inRange b = false ∧ t = s.raise .indexError b) ∨
    (s.mem.inRange a = true ∧ s.mem.inRange b = true ∧
      ∃ r, r = difference (s.mem.read a.toNat) (s.mem.read b.toNat) ∧
        t = (s.writeCell a.toNat r).goTo (if notPositive r then c else s.nextPc)) := by
  obtain rfl := Host.Outcome.next.inj ((execSubleq_eq a b c s).symm.trans h)
  cases ha : s.mem.inRange a <;> cases hb : s.mem.inRange b <;> simp

/-- Settles O47: IN and SUBLEQ write the cell their index operand names, by `read_write`; every other outcome leaves Memory
as it was. -/
theorem onlyInAndSubleqWriteMemory : Obligations.OnlyInAndSubleqWriteMemory := by
  intro i s t h
  cases i with
  | input b c =>
    rcases execInput_next h with ⟨-, rfl⟩ | ⟨hr, ⟨v, u, hp, rfl⟩ | ⟨-, rfl⟩ | ⟨-, -, rfl⟩⟩
    · simp
    · obtain ⟨-, hmem, -⟩ := portIn_done_frame hp
      refine ⟨by simp [hmem], fun k hk => Or.inl ⟨b, c, rfl, ?_⟩⟩
      have : k = b.toNat := by by_contra hne; simp [hmem, hne] at hk
      simp [hr, this]
    · simp
    · simp
  | output a c =>
    rcases execOutput_next h with ⟨-, rfl⟩ | ⟨-, ⟨u, hp, rfl⟩ | ⟨-, rfl⟩ | ⟨u, hp, rfl⟩⟩
    · simp
    · rcases portOut_done_cases hp with ⟨rfl, -⟩ | ⟨-, -, rfl⟩ | ⟨-, -, -, rfl⟩ | ⟨-, -, rfl⟩ <;> simp
    · simp
    · obtain ⟨-, -, -, rfl⟩ := portOut_ioError hp
      simp
  | halt a b =>
    obtain rfl : s.stopNormally .haltInstr = t := Host.Outcome.next.inj h
    simp
  | subleq a b c =>
    rcases execSubleq_next h with ⟨-, rfl⟩ | ⟨-, -, rfl⟩ | ⟨ha, -, r, -, rfl⟩
    · simp
    · simp
    · refine ⟨by simp, fun k hk => Or.inr ⟨a, b, c, rfl, ?_⟩⟩
      have : k = a.toNat := by by_contra hne; simp [hne] at hk
      simp [ha, this]

/-! The cursor and the raster. -/

theorem cursorInRaster_iff (cfg : Config) (io : Controller) :
    cursorInRaster cfg io = true ↔ io.curX < cfg.rasterW ∧ io.curY < cfg.rasterH := by simp [cursorInRaster]

@[simp] theorem advanceCursor_raster (cfg : Config) (io : Controller) : (advanceCursor cfg io).raster = io.raster := by
  unfold advanceCursor; split_ifs <;> rfl

@[simp] theorem advanceCursor_quit (cfg : Config) (io : Controller) : (advanceCursor cfg io).quit = io.quit := by
  unfold advanceCursor; split_ifs <;> rfl

/-- The cursor stays in the raster (R104). -/
theorem cursorInRaster_advanceCursor {cfg : Config} {io : Controller} (h : cursorInRaster cfg io = true) :
    cursorInRaster cfg (advanceCursor cfg io) = true := by
  rw [cursorInRaster_iff] at h ⊢
  unfold advanceCursor
  split_ifs <;> dsimp only <;> omega

/-- An element of the raster has a position below RASTER_W * RASTER_H. -/
theorem rasterIndex_lt {cfg : Config} {x y : Nat} (hx : x < cfg.rasterW) (hy : y < cfg.rasterH) :
    rasterIndex cfg x y < cfg.rasterW * cfg.rasterH :=
  calc y * cfg.rasterW + x < y * cfg.rasterW + cfg.rasterW := Nat.add_lt_add_left hx _
    _ = cfg.rasterW * (y + 1) := by ring
    _ ≤ cfg.rasterW * cfg.rasterH := Nat.mul_le_mul_left _ hy

/-- Painting an element of the raster keeps the canonical form. -/
theorem paint_wf {cfg : Config} {r : Raster} {x y : Nat} (col : Colour) (h : r.wf cfg = true) (hx : x < cfg.rasterW)
    (hy : y < cfg.rasterH) : (r.paint cfg x y col).wf cfg = true := by
  simp only [Raster.wf, Raster.paint, Bool.and_eq_true, List.all_eq_true, decide_eq_true_eq] at h ⊢
  obtain ⟨hrise, hin⟩ := h
  refine ⟨cellsRise_set col (Nat.zero_le _) hrise, fun c hc => ?_⟩
  rcases mem_cellsSet hc with rfl | hc
  · exact rasterIndex_lt hx hy
  · exact hin c hc

/-! Each operation keeps the invariant. -/

/-- The invariant speaks of no more than configuration, Memory, pc, stop record and controller. -/
theorem State.Inv.congr {s t : State} (h : s.Inv) (hcfg : t.cfg = s.cfg) (hmem : t.mem = s.mem) (hpc : t.pc = s.pc)
    (hstop : t.stop = s.stop) (hio : t.io = s.io) : t.Inv where
  cfgWf := hcfg ▸ h.cfgWf
  memWf := hmem ▸ h.memWf
  memSize := by rw [hmem, hcfg, h.memSize]
  cursor := by rw [hcfg, hio, h.cursor]
  rasterWf := by rw [hcfg, hio, h.rasterWf]
  stopWf := by have := h.stopWf; rw [State.stopWf] at this ⊢; rwa [hmem, hpc, hstop]

theorem State.Inv.writeCell {s : State} {i : Nat} (v : Word) (h : s.Inv) (hi : i < s.mem.size) : (s.writeCell i v).Inv :=
  { h with memWf := write_wf v h.memWf hi }

theorem State.Inv.paintPixel {s : State} (col : Colour) (h : s.Inv) : (s.paintPixel col).Inv := by
  obtain ⟨hx, hy⟩ := (cursorInRaster_iff ..).mp h.cursor
  exact { h with
    cursor := cursorInRaster_advanceCursor h.cursor
    rasterWf := by simpa using paint_wf col h.rasterWf hx hy }

theorem State.Inv.presentAndPoll {s : State} (h : s.Inv) : s.presentAndPoll.Inv := { h with }

/-- A pc update of a RUNNING machine, whatever the target: the run check decides whether it runs on (R64). -/
theorem State.Inv.goTo {s : State} (target : Word) (h : s.Inv) (hs : s.stop = StopRecord.running) :
    (s.goTo target).Inv where
  cfgWf := by simpa using h.cfgWf
  memWf := by simpa using h.memWf
  memSize := by simpa using h.memSize
  cursor := by simpa using h.cursor
  rasterWf := by simpa using h.rasterWf
  stopWf := by
    by_cases hr : s.mem.inRunRange target = true <;> simp [State.stopWf, stopAt_eq, hr, hs]

theorem State.Inv.haltInstr {s : State} (h : s.Inv) (hr : s.mem.inRunRange s.pc = true) :
    (s.stopNormally .haltInstr).Inv :=
  { h with stopWf := by simp [State.stopWf, hr] }

theorem State.Inv.indexError {s : State} {i : Word} (h : s.Inv) (hr : s.mem.inRunRange s.pc = true)
    (hi : s.mem.inRange i = false) : (s.raise .indexError i).Inv :=
  { h with stopWf := by simp [State.stopWf, hr, hi] }

theorem State.Inv.ioError {s : State} (h : s.Inv) (hr : s.mem.inRunRange s.pc = true) : (s.raise .ioError 0).Inv :=
  { h with stopWf := by simp [State.stopWf, hr] }

/-- A port input that is done keeps the invariant. -/
theorem State.Inv.portIn {s t : State} {p v : Word} (h : s.Inv) (hp : portIn p s = .done v t) : t.Inv := by
  obtain ⟨hcfg, hmem, hpc, hstop, hio, -⟩ := portIn_done_frame hp
  exact h.congr hcfg hmem hpc hstop hio

/-- A port output that is done keeps the invariant and the stop record. -/
theorem State.Inv.portOut {s t : State} {p v : Word} {u : Unit} (h : s.Inv) (hp : portOut p v s = .done u t) :
    t.Inv ∧ t.stop = s.stop := by
  rcases portOut_done_cases hp with ⟨rfl, -⟩ | ⟨-, -, rfl⟩ | ⟨-, -, -, rfl⟩ | ⟨-, -, rfl⟩
  · exact ⟨h, rfl⟩
  · exact ⟨h.congr rfl rfl rfl rfl rfl, rfl⟩
  · exact ⟨h.paintPixel _, rfl⟩
  · exact ⟨h.presentAndPoll, rfl⟩

/-- Every instruction keeps the invariant of a RUNNING machine. -/
theorem State.Inv.exec {s t : State} (i : Instr) (h : s.Inv) (hrun : s.stop.status = .running)
    (he : exec i s = .next t) : t.Inv := by
  obtain ⟨hs, hr⟩ := h.of_running hrun
  cases i with
  | input b c =>
    rcases execInput_next he with ⟨hb, rfl⟩ | ⟨hb, ⟨v, u, hp, rfl⟩ | ⟨-, rfl⟩ | ⟨-, -, rfl⟩⟩
    · exact h.indexError hr hb
    · obtain ⟨-, hmem, -, hstop, -⟩ := portIn_done_frame hp
      exact ((h.portIn hp).writeCell v (hmem ▸ lt_size_of_inRange hb)).goTo _ (hstop.trans hs)
    · exact h
    · exact h.ioError hr
  | output a c =>
    rcases execOutput_next he with ⟨ha, rfl⟩ | ⟨-, ⟨u, hp, rfl⟩ | ⟨-, rfl⟩ | ⟨u, hp, rfl⟩⟩
    · exact h.indexError hr ha
    · obtain ⟨hu, hstop⟩ := h.portOut hp
      exact hu.goTo _ (hstop.trans hs)
    · exact h
    · obtain ⟨rfl, -, -, rfl⟩ := portOut_ioError hp
      exact (h.congr (by simp) (by simp) (by simp) (by simp) (by simp)).ioError (by simpa using hr)
  | halt a b =>
    obtain rfl : s.stopNormally .haltInstr = t := Host.Outcome.next.inj he
    exact h.haltInstr hr
  | subleq a b c =>
    rcases execSubleq_next he with ⟨ha, rfl⟩ | ⟨-, hb, rfl⟩ | ⟨ha, -, r, -, rfl⟩
    · exact h.indexError hr ha
    · exact h.indexError hr hb
    · exact (h.writeCell r (lt_size_of_inRange ha)).goTo _ hs

/-- Settles O50: a stopped machine stays as it is, a RUNNING one has pc in the run range and executes an instruction. -/
theorem everyStepKeepsTheInvariant : Obligations.EveryStepKeepsTheInvariant := by
  intro s t h hst
  rcases step_cases s with ⟨-, e⟩ | ⟨hrun, hr, -⟩ | ⟨hrun, -, e⟩
  · obtain rfl := Host.Outcome.next.inj (e.symm.trans hst)
    exact h
  · obtain ⟨-, hr'⟩ := h.of_running hrun
    simp [hr'] at hr
  · exact h.exec _ hrun (e ▸ hst)

/-! Reset and the environment. -/

/-- What reset loads before it decides how the machine stands (R141): IMAGE, pc 0, the controller initialised. -/
def State.resetLoad (s : State) : State := State.initController { s with mem := Memory.ofImage s.cfg.image, pc := 0 }

/-- Reset, by whether the display fails to initialise (R124). -/
theorem applyReset_cases (s : State) :
    (s.displayInitFails = true ∧ s.applyReset = s.resetLoad.raise .displayInitError 0) ∨
    (s.displayInitFails = false ∧ s.applyReset = State.runCheck { s.resetLoad with stop := StopRecord.running }) := by
  unfold State.applyReset State.resetLoad
  cases s.displayInitFails <;> simp

theorem displayInitFails_iff (s : State) :
    s.displayInitFails = true ↔ s.cfg.hasDisplay = true ∧ s.env.initFails = true := by simp [State.displayInitFails]

@[simp] theorem resetLoad_cfg (s : State) : s.resetLoad.cfg = s.cfg := rfl
@[simp] theorem resetLoad_mem (s : State) : s.resetLoad.mem = Memory.ofImage s.cfg.image := rfl
@[simp] theorem resetLoad_pc (s : State) : s.resetLoad.pc = 0 := rfl
@[simp] theorem resetLoad_io (s : State) : s.resetLoad.io = ⟨0, 0, ⟨[], s.draws⟩, false⟩ := rfl
@[simp] theorem resetLoad_charOut (s : State) : s.resetLoad.env.charOut = [] := rfl

@[simp] theorem applyReset_cfg (s : State) : s.applyReset.cfg = s.cfg := by
  rcases applyReset_cases s with ⟨-, e⟩ | ⟨-, e⟩ <;> simp [e]

@[simp] theorem applyReset_mem (s : State) : s.applyReset.mem = Memory.ofImage s.cfg.image := by
  rcases applyReset_cases s with ⟨-, e⟩ | ⟨-, e⟩ <;> simp [e]

@[simp] theorem applyReset_pc (s : State) : s.applyReset.pc = 0 := by
  rcases applyReset_cases s with ⟨-, e⟩ | ⟨-, e⟩ <;> simp [e]

@[simp] theorem applyReset_io (s : State) : s.applyReset.io = ⟨0, 0, ⟨[], s.draws⟩, false⟩ := by
  rcases applyReset_cases s with ⟨-, e⟩ | ⟨-, e⟩ <;> simp [e]

@[simp] theorem applyReset_charOut (s : State) : s.applyReset.env.charOut = [] := by
  rcases applyReset_cases s with ⟨-, e⟩ | ⟨-, e⟩ <;> simp [e]

/-- pc 0 is in the run range of Memory as loaded exactly when the image has at least three values (R63, R144). -/
theorem ofImage_inRunRange_zero (image : List Word) :
    (Memory.ofImage image).inRunRange 0#64 = decide (3 ≤ image.length) := by
  rw [Bool.eq_iff_iff, inRunRange_iff, decide_eq_true_eq, ofImage_size, BitVec.toInt_zero]
  omega

/-- How the machine stands after reset (R124, R144). -/
theorem applyReset_stop (s : State) : s.applyReset.stop =
    if s.displayInitFails then ⟨.faulted, .displayInitError, 0⟩
    else if 3 ≤ s.cfg.image.length then StopRecord.running else ⟨.halted, .haltBounds, 0⟩ := by
  rcases applyReset_cases s with ⟨hf, e⟩ | ⟨hf, e⟩ <;> simp [e, hf, stopAt_eq, ofImage_inRunRange_zero]

/-- Settles O54: each field read off the state after reset. -/
theorem resetLoadsTheImageAndStarts : Obligations.ResetLoadsTheImageAndStarts := by
  intro s
  simp only [← displayInitFails_iff]
  refine ⟨applyReset_cfg s, by simp, fun i h => ?_, applyReset_pc s, by simp, by simp, by simp, applyReset_charOut s,
    fun hf => ?_, fun hf h3 => ?_, fun hf h3 => ?_⟩
  · rw [applyReset_mem, ofImage_read]
  · rw [applyReset_stop, if_pos hf]
  · rw [applyReset_stop, if_neg hf, if_pos h3]
  · rw [applyReset_stop, if_neg hf, if_neg (by omega)]

/-- Reset establishes the invariant from any state whose parameters lie in their ranges. -/
theorem applyReset_inv {s : State} (h : s.cfg.wf = true) : s.applyReset.Inv where
  cfgWf := by simpa using h
  memWf := by simpa using ofImage_wf s.cfg.image
  memSize := by simp
  cursor := by
    simp only [Config.wf, Bool.and_eq_true, decide_eq_true_eq] at h
    obtain ⟨⟨⟨-, hw⟩, hh⟩, -⟩ := h
    simp [cursorInRaster, hw, hh]
  rasterWf := by simp [Raster.wf, cellsRise]
  stopWf := by
    by_cases hf : s.displayInitFails = true <;> by_cases h3 : 3 ≤ s.cfg.image.length <;>
      simp [State.stopWf, applyReset_stop, ofImage_inRunRange_zero, hf, h3]

/-- The state after reset is what a reset of a machine with no program leaves. -/
theorem reset_eq_applyReset : State.reset = State.applyReset { State.reset with draws := 0 } := rfl

/-- Settles O51: `State.reset` is a reset of a machine whose parameters lie in their ranges. -/
theorem resetMeetsTheInvariant : Obligations.ResetMeetsTheInvariant := by
  unfold Obligations.ResetMeetsTheInvariant
  rw [reset_eq_applyReset]
  exact applyReset_inv (by decide)

/-- Settles O52: reset establishes the invariant, and every other move touches the environment only. -/
theorem everyEnvironmentMoveKeepsTheInvariant : Obligations.EveryEnvironmentMoveKeepsTheInvariant := by
  intro e s h
  cases e with
  | reset => exact applyReset_inv h.cfgWf
  | _ => exact h.congr rfl rfl rfl rfl rfl

/-- Every state a run reaches meets the invariant. -/
theorem Reachable.inv {s : State} (h : Reachable s) : s.Inv := by
  induction h with
  | reset s h => exact applyReset_inv h
  | step s t _ hs ih => exact everyStepKeepsTheInvariant s t ih hs
  | event s e _ ih => exact everyEnvironmentMoveKeepsTheInvariant e s ih

/-- Settles O53: the four items of R30 read off the invariant, and a stopped machine's step from
`step_of_not_running`. -/
theorem reachableStatesMeetTheSpecsInvariants : Obligations.ReachableStatesMeetTheSpecsInvariants := by
  intro s hs
  have h := hs.inv
  refine ⟨h.memSize, fun hrun => ?_, step_of_not_running, (cursorInRaster_iff ..).mp h.cursor⟩
  obtain ⟨-, hr⟩ := h.of_running hrun
  obtain ⟨h0, h3⟩ := (inRunRange_iff ..).mp hr
  omega

/-! What a program sees: every operation keeps `SameToProgram`, so no step tells two such states apart. -/

namespace SameToProgram

variable {s t : State}

theorem writeCell (h : SameToProgram s t) (i : Nat) (v : Word) : SameToProgram (s.writeCell i v) (t.writeCell i v) :=
  { h with mem := congrArg (·.write i v) h.mem }

theorem raise (h : SameToProgram s t) (k : Cause) (info : Word) : SameToProgram (s.raise k info) (t.raise k info) :=
  { h with stop := rfl }

theorem stopNormally (h : SameToProgram s t) (k : Cause) : SameToProgram (s.stopNormally k) (t.stopNormally k) :=
  { h with stop := rfl }

theorem runCheck (h : SameToProgram s t) : SameToProgram s.runCheck t.runCheck := by
  unfold State.runCheck
  rw [h.mem, h.pc]
  split_ifs
  · exact h
  · exact h.stopNormally _

theorem goTo (h : SameToProgram s t) (target : Word) : SameToProgram (s.goTo target) (t.goTo target) :=
  runCheck { h with pc := rfl }

theorem consumeChar (h : SameToProgram s t) : SameToProgram s.consumeChar t.consumeChar :=
  { h with charIn := congrArg List.tail h.charIn }

theorem emitChar (h : SameToProgram s t) (k : Byte) : SameToProgram (s.emitChar k) (t.emitChar k) := { h with }

theorem countDraw (h : SameToProgram s t) : SameToProgram s.countDraw t.countDraw :=
  { h with draws := congrArg (· + 1) h.draws }

theorem failedPut (h : SameToProgram s t) (k : Byte) : SameToProgram (s.failedPut k) (t.failedPut k) := by
  unfold State.failedPut
  rw [h.draws]
  split
  · exact (h.emitChar k).countDraw
  · exact h.countDraw

theorem paintPixel (h : SameToProgram s t) (col : Colour) : SameToProgram (s.paintPixel col) (t.paintPixel col) :=
  { h with quit := by simpa using h.quit }

theorem presentAndPoll (h : SameToProgram s t) : SameToProgram s.presentAndPoll t.presentAndPoll :=
  { h with
    quit := by simp [h.quit, h.pending]
    keys := by simp [h.keys, h.pending]
    pending := rfl }

theorem random32 (h : SameToProgram s t) :
    (random32 s).1 = (random32 t).1 ∧ SameToProgram (random32 s).2 (random32 t).2 := by
  unfold Machine.random32
  rw [h.randoms]
  split
  · exact ⟨rfl, { h with randoms := rfl }⟩
  · exact ⟨by rw [h.draws], h.countDraw⟩

theorem fetchCell (h : SameToProgram s t) (k : Nat) : s.fetchCell k = t.fetchCell k := by
  unfold State.fetchCell; rw [h.mem, h.pc]

theorem nextPc (h : SameToProgram s t) : s.nextPc = t.nextPc := congrArg (· + 3) h.pc

end SameToProgram

/-- Two port answers a program cannot tell apart. -/
inductive SameAnswer {α : Type} : PortAnswer α → PortAnswer α → Prop where
  | done (v : α) {s t : State} (h : SameToProgram s t) : SameAnswer (.done v s) (.done v t)
  | waits : SameAnswer .waits .waits
  | ioError {s t : State} (h : SameToProgram s t) : SameAnswer (.ioError s) (.ioError t)
  | noDisplay : SameAnswer .noDisplay .noDisplay

/-- Two outcomes a program cannot tell apart. -/
inductive SameOutcome : Host.Outcome State Fault Refusal → Host.Outcome State Fault Refusal → Prop where
  | next {s t : State} (h : SameToProgram s t) : SameOutcome (.next s) (.next t)
  | refused (r : Refusal) : SameOutcome (.refused r) (.refused r)

namespace SameToProgram

variable {s t : State}

theorem port0In (h : SameToProgram s t) : SameAnswer (port0In s) (port0In t) := by
  have hget : charGet s.env = charGet t.env := by unfold charGet; rw [h.charInCond, h.charIn]
  unfold Machine.port0In
  rw [hget, h.cfg]
  split
  · exact .done _ h.consumeChar
  · exact .ioError h
  · exact .waits
  · split
    · exact .ioError h
    · exact .done _ h
    · exact .waits

theorem port0Out (h : SameToProgram s t) (v : Word) : SameAnswer (port0Out v s) (port0Out v t) := by
  unfold Machine.port0Out
  rw [h.charOutFails]
  split_ifs
  · exact .ioError (h.failedPut _)
  · exact .done _ (h.emitChar _)
  · exact .done _ h

theorem ifDisplay {α : Type} {x y : PortAnswer α} (h : SameToProgram s t) (hxy : SameAnswer x y) :
    SameAnswer (ifDisplay s x) (ifDisplay t y) := by
  unfold Machine.ifDisplay
  rw [h.cfg]
  split_ifs
  · exact hxy
  · exact .noDisplay

theorem port1In (h : SameToProgram s t) : SameAnswer (port1In s) (port1In t) := by
  unfold Machine.port1In
  rw [h.quit, h.keys]
  exact .done _ h

theorem port2In (h : SameToProgram s t) : SameAnswer (port2In s) (port2In t) := by
  obtain ⟨hsample, hafter⟩ := h.random32
  unfold Machine.port2In
  rw [hsample]
  exact .done _ hafter

/-- Each state's cursor is in its raster, so both paint, each where its own cursor stands. -/
theorem port1Out (h : SameToProgram s t) (hs : s.Inv) (ht : t.Inv) (v : Word) :
    SameAnswer (port1Out v s) (port1Out v t) := by
  unfold Machine.port1Out
  rw [if_pos hs.cursor, if_pos ht.cursor, h.cfg]
  exact .done _ (h.paintPixel _)

theorem portIn (h : SameToProgram s t) (p : Word) : SameAnswer (portIn p s) (portIn p t) := by
  unfold Machine.portIn
  cases portOperand p with
  | chars => exact h.port0In
  | keysPixel => exact h.ifDisplay h.port1In
  | randomPresent => exact h.ifDisplay h.port2In
  | unlisted => exact .done _ h

theorem portOut (h : SameToProgram s t) (hs : s.Inv) (ht : t.Inv) (p v : Word) :
    SameAnswer (portOut p v s) (portOut p v t) := by
  unfold Machine.portOut
  cases portOperand p with
  | chars => exact h.port0Out v
  | keysPixel => exact h.ifDisplay (h.port1Out hs ht v)
  | randomPresent => exact h.ifDisplay (.done _ h.presentAndPoll)
  | unlisted => exact .done _ h

theorem execInput (h : SameToProgram s t) (b c : Word) : SameOutcome (execInput b c s) (execInput b c t) := by
  have hport := h.portIn c
  unfold Machine.execInput
  rw [h.mem, h.nextPc]
  cases indexOperand t.mem b with
  | none => exact .next (h.raise _ _)
  | some i =>
    generalize Machine.portIn c s = x, Machine.portIn c t = y at hport
    cases hport with
    | done v hu => exact .next ((hu.writeCell i v).goTo _)
    | waits => exact .next h
    | ioError hu => exact .next (hu.raise _ _)
    | noDisplay => exact .refused _

theorem execOutput (h : SameToProgram s t) (hs : s.Inv) (ht : t.Inv) (a c : Word) :
    SameOutcome (execOutput a c s) (execOutput a c t) := by
  unfold Machine.execOutput
  rw [h.mem, h.nextPc]
  cases indexOperand t.mem a with
  | none => exact .next (h.raise _ _)
  | some i =>
    have hport := h.portOut hs ht c (t.mem.read i)
    dsimp only
    generalize Machine.portOut c (t.mem.read i) s = x, Machine.portOut c (t.mem.read i) t = y at hport
    cases hport with
    | done v hu => exact .next (hu.goTo _)
    | waits => exact .next h
    | ioError hu => exact .next (hu.raise _ _)
    | noDisplay => exact .refused _

theorem execSubleq (h : SameToProgram s t) (a b c : Word) : SameOutcome (execSubleq a b c s) (execSubleq a b c t) := by
  rw [execSubleq_eq, execSubleq_eq, h.mem, h.nextPc]
  refine .next ?_
  split_ifs
  · exact h.raise _ _
  · exact h.raise _ _
  · exact (h.writeCell _ _).goTo _
  · exact (h.writeCell _ _).goTo _

theorem exec (h : SameToProgram s t) (hs : s.Inv) (ht : t.Inv) (i : Instr) : SameOutcome (exec i s) (exec i t) := by
  cases i with
  | input b c => exact h.execInput b c
  | output a c => exact h.execOutput hs ht a c
  | halt a b => exact .next (h.stopNormally _)
  | subleq a b c => exact h.execSubleq a b c

/-- Both states are stopped, or both run the same fetched instruction. -/
theorem step (h : SameToProgram s t) (hs : s.Inv) (ht : t.Inv) : SameOutcome (step s) (step t) := by
  unfold Machine.step startStep
  rw [h.stop, h.mem, h.pc, h.fetchCell, h.fetchCell, h.fetchCell]
  cases t.stop.status with
  | running =>
    cases t.mem.inRunRange t.pc with
    | true => exact h.exec hs ht _
    | false => exact .next (h.stopNormally _)
  | halted => exact .next h
  | faulted => exact .next h

end SameToProgram

/-- Settles O57: a step keeps `SameToProgram`; the invariant gives both states a cursor in the raster. -/
theorem programsCannotSeeTheRaster : Obligations.ProgramsCannotSeeTheRaster := by
  intro s t s' hs ht h hstep
  have hout := h.step hs ht
  rw [hstep] at hout
  generalize step t = out at hout
  cases hout with
  | next h' => exact ⟨_, rfl, h'⟩

end Sys2Proof.Machine
end

section

/-! The encoding family (30_encoding.md): the decoder by its four cases, the 192-bit value and the opcode table in terms of
the triple, and SUBLEQ of a cell with itself (R61). -/

namespace Sys2Proof

/-! The decoder. -/

/-- The decoder, whatever the triple: one of the four exclusive conditions of R53 holds and selects the operation. -/
theorem decode_cases (a b c : Word) :
    (a = -1 ∧ decode a b c = .input b c) ∨
    (a ≠ -1 ∧ b = -1 ∧ decode a b c = .output a c) ∨
    (a ≠ -1 ∧ b ≠ -1 ∧ c = -1 ∧ decode a b c = .halt a b) ∨
    (a ≠ -1 ∧ b ≠ -1 ∧ c ≠ -1 ∧ decode a b c = .subleq a b c) := by
  unfold decode
  split_ifs <;> simp_all

/-- Settles O1: in each case of the decoder the instruction it names is no other constructor, and the four conditions
exclude one another. -/
theorem decodeFollowsThePriorityOfTheSentinels : Obligations.DecodeFollowsThePriorityOfTheSentinels := by
  intro a b c
  rcases decode_cases a b c with ⟨ha, e⟩ | ⟨ha, hb, e⟩ | ⟨ha, hb, hc, e⟩ | ⟨ha, hb, hc, e⟩ <;> rw [e] <;>
    simp only [reduceCtorEq, iff_true, iff_false] <;> tauto

/-- A well-formed instruction is the one its triple decodes to: the condition of R53 that its triple meets selects it. -/
theorem decode_encode {i : Instr} (h : i.wf = true) : decode (encode i).1 (encode i).2.1 (encode i).2.2 = i := by
  obtain ⟨hinput, houtput, hhalt, hsubleq⟩ :=
    decodeFollowsThePriorityOfTheSentinels (encode i).1 (encode i).2.1 (encode i).2.2
  cases i with
  | input dest port => exact hinput.mp (Laws.EncodedCondition.input dest port h)
  | output src port => exact houtput.mp (Laws.EncodedCondition.output src port h)
  | halt a b => exact hhalt.mp (Laws.EncodedCondition.halt a b h)
  | subleq a b c => exact hsubleq.mp (Laws.EncodedCondition.subleq a b c h)

/-- The 192-bit value of a triple decodes as the triple does (R50). -/
theorem decodeTableWord_packTriple (a b c : Word) :
    decodeTableWord 192 (packTriple a b c).toNat = some (decode a b c) := by
  obtain ⟨ha, hb, hc⟩ := tableCell_packTriple a b c
  simp only [decodeTableWord, decodeCells, ha, hb, hc]

/-- Settles O2: the 192-bit value gives back its triple, and the triple its instruction. -/
theorem decodeOfEncodedInstructionIsIt : Obligations.DecodeOfEncodedInstructionIsIt := by
  intro i h
  calc decodeTableWord 192 (tableWord i)
      = some (decode (encode i).1 (encode i).2.1 (encode i).2.2) := decodeTableWord_packTriple ..
    _ = some i := by rw [decode_encode h]

/-! When an instruction is well-formed, by the condition of R53 on its own operands. -/

theorem wf_output_iff (a c : Word) : (Instr.output a c).wf = true ↔ a ≠ -1 := bne_iff_ne

theorem wf_halt_iff (a b : Word) : (Instr.halt a b).wf = true ↔ a ≠ -1 ∧ b ≠ -1 := by simp [Instr.wf]

theorem wf_subleq_iff (a b c : Word) : (Instr.subleq a b c).wf = true ↔ a ≠ -1 ∧ b ≠ -1 ∧ c ≠ -1 := by
  simp [Instr.wf, and_assoc]

/-- Settles O3: in each case of the decoder the instruction keeps the operands that are not the sentinel which selected it,
and the encoder puts that sentinel back. -/
theorem everyTripleIsAnInstruction : Obligations.EveryTripleIsAnInstruction := by
  intro a b c
  rcases decode_cases a b c with ⟨rfl, e⟩ | ⟨ha, rfl, e⟩ | ⟨ha, hb, rfl, e⟩ | ⟨ha, hb, hc, e⟩ <;> rw [e]
  · exact ⟨rfl, rfl⟩
  · exact ⟨(wf_output_iff ..).mpr ha, rfl⟩
  · exact ⟨(wf_halt_iff ..).mpr ⟨ha, hb⟩, rfl⟩
  · exact ⟨(wf_subleq_iff ..).mpr ⟨ha, hb, hc⟩, rfl⟩

/-! The opcode table. -/

/-- The rows of the table as triples (R58): each tests one cell for the sentinel, the last tests nothing. -/
theorem opcodeRows_eq : opcodeRows =
    [⟨"IN", packTriple sentinel 0#64 0#64, packTriple sentinel 0#64 0#64⟩,
     ⟨"OUT", packTriple 0#64 sentinel 0#64, packTriple 0#64 sentinel 0#64⟩,
     ⟨"HALT", packTriple 0#64 0#64 sentinel, packTriple 0#64 0#64 sentinel⟩,
     ⟨"SUBLEQ", packTriple 0#64 0#64 0#64, packTriple 0#64 0#64 0#64⟩] := by decide

/-- The sentinel as a mask takes the whole cell. -/
theorem and_sentinel (w : Word) : w &&& sentinel = w := BitVec.and_allOnes

/-- A mask taken as its own bits tests each cell of the triple by itself. -/
theorem packTriple_matches (a b c x y z : Word) :
    packTriple a b c &&& packTriple x y z = packTriple x y z ↔ a &&& x = x ∧ b &&& y = y ∧ c &&& z = z := by
  rw [packTriple_and, packTriple_inj]

/-- The row the table selects, by the sentinels of the triple (R58). -/
theorem opcodeRowOf_packTriple (a b c : Word) : opcodeRowOf (packTriple a b c) = some
    (if a = sentinel then "IN" else if b = sentinel then "OUT" else if c = sentinel then "HALT" else "SUBLEQ") := by
  simp only [opcodeRowOf, opcodeRows_eq, List.find?_cons, beq_eq_decide, packTriple_matches, and_sentinel,
    BitVec.and_zero, and_true, true_and]
  split_ifs <;> simp only [*, decide_true, decide_false, Option.map_some]

/-- Settles O4: the table tests the sentinels in the decoder's order. -/
theorem opcodeTableSelectsTheDecodedOperation : Obligations.OpcodeTableSelectsTheDecodedOperation := by
  intro a b c
  rw [opcodeRowOf_packTriple]
  unfold decode
  split_ifs <;> rfl

/-! The worked encodings. -/

/-- What is to compute of a worked encoding is its 192-bit value and the cells of its text; that the value decodes to the
instruction follows. -/
theorem workedEncoding_of_tableWord {i : Instr} {w : Nat} {text : List Char} (h : i.wf = true) (hw : tableWord i = w)
    (htext : Machine.loadImage (some text) = .ok (encodeCells i)) :
    decodeTableWord 192 w = some i ∧ tableWord i = w ∧ Machine.loadImage (some text) = .ok (encodeCells i) :=
  ⟨hw ▸ decodeOfEncodedInstructionIsIt i h, hw, htext⟩

/-- Settles O5: the values and the cells of R62's five instructions, computed. -/
theorem workedEncodingsDecode : Obligations.WorkedEncodingsDecode :=
  ⟨workedEncoding_of_tableWord (by decide) (by decide) (by decide),
    workedEncoding_of_tableWord (by decide) (by decide) (by decide),
    workedEncoding_of_tableWord (by decide) (by decide) (by decide),
    workedEncoding_of_tableWord (by decide) (by decide) (by decide),
    workedEncoding_of_tableWord (by decide) (by decide) (by decide)⟩

end Sys2Proof

namespace Sys2Proof.Machine

/-! SUBLEQ of a cell with itself. -/

@[simp] theorem difference_self (x : Word) : difference x x = 0 := by simp [difference, wrap64]

/-- SUBLEQ of a cell with itself stores 0, which is not positive, so it branches (R61, R90). -/
theorem execSubleq_self {a : Word} (c : Word) {s : State} (h : s.mem.inRange a = true) :
    execSubleq a a c s = .next ((s.writeCell a.toNat 0).goTo c) := by
  have hzero : notPositive 0 = true := rfl
  simp only [execSubleq_eq, h, difference_self, hzero, if_true, Bool.true_eq_false, if_false]

/-- Settles O16: the cell read after the write of 0, and pc after the branch. -/
theorem subleqOfACellWithItselfClearsAndJumps : Obligations.SubleqOfACellWithItselfClearsAndJumps := by
  intro a c s h
  exact ⟨_, execSubleq_self c h, by simp, by simp⟩

end Sys2Proof.Machine
end

section

/-! The step family (40_step_loop.md): the run range by the cells of the triple, the three cases of a step as equations, and
the steps that latch their operands (R65) or wait (R72). -/

namespace Sys2Proof.Machine

/-! The run range (R63, decision D3). -/

/-- The successor of an index in range does not overflow, since SIZE is below 2^63. -/
theorem toInt_add_one_of_inRange {m : Memory} {i : Word} (hm : m.size < 2 ^ 63) (h : m.inRange i = true) :
    (i + 1).toInt = i.toInt + 1 := by
  obtain ⟨h0, hlt⟩ := (inRange_iff m i).mp h
  rw [BitVec.toInt_add, show (1 : Word).toInt = 1 from rfl]
  exact Int.bmod_eq_of_le (by omega) (by omega)

theorem inRange_add_one_iff {m : Memory} {i : Word} (hm : m.size < 2 ^ 63) (h : m.inRange i = true) :
    m.inRange (i + 1) = true ↔ i.toInt + 1 < m.size := by
  have h0 := ((inRange_iff m i).mp h).1
  rw [inRange_iff, toInt_add_one_of_inRange hm h]
  omega

/-- The run range is where all three cells of the triple exist: each index in turn is the exact successor of the one
before. -/
theorem inRunRange_iff_inRange {m : Memory} (pc : Word) (hm : m.size < 2 ^ 63) :
    m.inRunRange pc = true ↔ m.inRange pc = true ∧ m.inRange (pc + 1) = true ∧ m.inRange (pc + 2) = true := by
  have hsucc : pc + 2 = pc + 1 + 1 := (BitVec.add_assoc pc 1 1).symm
  rw [inRunRange_iff, hsucc]
  constructor
  · rintro ⟨h0, h3⟩
    have hpc : m.inRange pc = true := (inRange_iff m pc).mpr ⟨h0, by omega⟩
    have hpc1 : m.inRange (pc + 1) = true := (inRange_add_one_iff hm hpc).mpr (by omega)
    have hsum := toInt_add_one_of_inRange hm hpc
    exact ⟨hpc, hpc1, (inRange_add_one_iff hm hpc1).mpr (by omega)⟩
  · rintro ⟨hpc, hpc1, hpc2⟩
    have hlt := (inRange_add_one_iff hm hpc1).mp hpc2
    rw [toInt_add_one_of_inRange hm hpc] at hlt
    exact ⟨((inRange_iff m pc).mp hpc).1, by omega⟩

/-- Settles O9: the range and its cells in general; below three cells the bounds on pc contradict each other, and at three
they leave pc = 0. -/
theorem runRangeIsWhereTheTripleFits : Obligations.RunRangeIsWhereTheTripleFits := by
  intro m pc hm
  refine ⟨?_, inRunRange_iff_inRange pc hm, fun hsize => ?_, fun hsize => ?_⟩
  · rw [inRunRange_iff]; omega
  · rw [Bool.eq_false_iff, ne_eq, inRunRange_iff]; omega
  · rw [inRunRange_iff, ← BitVec.toInt_inj, show (0 : Word).toInt = 0 from rfl]; omega

/-! A step of a RUNNING machine (R64 to R67). -/

theorem step_of_inRunRange {s : State} (hrun : s.stop.status = .running) (hpc : s.mem.inRunRange s.pc = true) :
    step s = exec (decode (s.fetchCell 0) (s.fetchCell 1) (s.fetchCell 2)) s := by
  rcases step_cases s with ⟨hr, -⟩ | ⟨-, hout, -⟩ | ⟨-, -, e⟩
  · exact absurd hrun hr
  · exact absurd hpc (Bool.eq_false_iff.mp hout)
  · exact e

theorem step_of_not_inRunRange {s : State} (hrun : s.stop.status = .running) (hpc : s.mem.inRunRange s.pc = false) :
    step s = .next (s.stopNormally .haltBounds) := by
  rcases step_cases s with ⟨hr, -⟩ | ⟨-, -, e⟩ | ⟨-, hin, -⟩
  · exact absurd hrun hr
  · exact e
  · exact absurd hin (Bool.eq_false_iff.mp hpc)

/-- The step executes the well-formed instruction whose triple stands at pc. -/
theorem step_of_encode {s : State} {i : Instr} (hrun : s.stop.status = .running) (hpc : s.mem.inRunRange s.pc = true)
    (hwf : i.wf = true) (hfetch : encode i = (s.fetchCell 0, s.fetchCell 1, s.fetchCell 2)) : step s = exec i s := by
  have hdec : decode (s.fetchCell 0) (s.fetchCell 1) (s.fetchCell 2) = i := by simpa only [hfetch] using decode_encode hwf
  rw [step_of_inRunRange hrun hpc, hdec]

/-- Settles O6: the three cells read are those of the fetch, and a well-formed instruction is decoded from its encoding. -/
theorem stepRunsTheFetchedInstruction : Obligations.StepRunsTheFetchedInstruction := by
  intro s hrun h0 h3
  have hpc : s.mem.inRunRange s.pc = true := (inRunRange_iff ..).mpr ⟨h0, by omega⟩
  exact ⟨step_of_inRunRange hrun hpc, fun i hwf hfetch => step_of_encode hrun hpc hwf hfetch⟩

/-- Settles O8: outside the run range only the bounds exit is left of the cases of a step. -/
theorem stepOutsideTheRunRangeStops : Obligations.StepOutsideTheRunRangeStops := by
  intro s hrun hout
  have hpc : s.mem.inRunRange s.pc = false := by rw [Bool.eq_false_iff, ne_eq, inRunRange_iff]; omega
  exact step_of_not_inRunRange hrun hpc

/-! SUBLEQ over its own c cell (R65, R90, decision D11). -/

/-- SUBLEQ that branches: with both indices in range and a difference that is not positive it stores and goes to `c`. -/
theorem execSubleq_of_notPositive {a b c r : Word} {s : State} (ha : s.mem.inRange a = true) (hb : s.mem.inRange b = true)
    (hr : difference (s.mem.read a.toNat) (s.mem.read b.toNat) = r) (hle : r.toInt ≤ 0) :
    execSubleq a b c s = .next ((s.writeCell a.toNat r).goTo c) := by
  have hpos : notPositive r = true := decide_eq_true hle
  simp only [execSubleq_eq, ha, hb, hr, hpos, if_true, Bool.true_eq_false, if_false]

/-- The index of the triple's c cell does not overflow. -/
theorem toNat_add_two_of_nonneg {pc : Word} (h : 0 ≤ pc.toInt) : (pc + 2).toNat = pc.toNat + 2 := by
  have hpc := toNat_of_nonneg h
  have hlt := BitVec.toInt_lt (x := pc)
  exact BitVec.toNat_add_of_lt (show pc.toNat + 2 < 2 ^ 64 by omega)

/-- Settles O17: the step is SUBLEQ of the latched operands, so it jumps to the `c` fetched although it writes the cell `c`
was fetched from. -/
theorem subleqOverItsOwnTargetJumpsToTheOldTarget : Obligations.SubleqOverItsOwnTargetJumpsToTheOldTarget := by
  intro a b c s hrun hpc hsize hwf ha hb hfetchA hfetchB hfetchC hle
  have hcell : a.toNat = s.pc.toNat + 2 := ha ▸ toNat_add_two_of_nonneg ((inRunRange_iff ..).mp hpc).1
  have hina : s.mem.inRange a = true := ha ▸ ((inRunRange_iff_inRange s.pc hsize).mp hpc).2.2
  have hfetch : encode (.subleq a b c) = (s.fetchCell 0, s.fetchCell 1, s.fetchCell 2) := by
    simp only [encode, State.fetchCell, Nat.add_zero, hfetchA, hfetchB, hfetchC]
  have hdiff : difference (s.mem.read a.toNat) (s.mem.read b.toNat) = difference c (s.mem.read b.toNat) := by
    rw [hcell, hfetchC]
  have hstep : step s = .next ((s.writeCell a.toNat (difference c (s.mem.read b.toNat))).goTo c) :=
    (step_of_encode hrun hpc hwf hfetch).trans (execSubleq_of_notPositive hina hb hdiff hle)
  exact ⟨_, hstep, by simp, by simp [hcell]⟩

/-! Port-0 input with no byte supplied (R72, R99). -/

theorem portIn_zero (s : State) : portIn 0 s = port0In s := rfl

theorem charGet_of_ready_nil {env : Env} (hc : env.charInCond = .ready) (hi : env.charIn = []) : charGet env = .notYet := by
  unfold charGet
  rw [hc, hi]

/-- Port-0 input waits while `CharGet` has no answer yet, whatever EOF_POLICY says. -/
theorem port0In_of_notYet {s : State} (h : charGet s.env = .notYet) : port0In s = .waits := by
  unfold port0In
  rw [h]

/-- IN from a port that waits is a step that answers the same state (log 5). -/
theorem execInput_of_waits {b c : Word} {s : State} (hb : s.mem.inRange b = true) (hp : portIn c s = .waits) :
    execInput b c s = .next s := by
  unfold execInput
  rw [indexOperand_of_inRange hb, hp]

/-- Settles O21: `CharGet` has no answer yet, so the port waits, and so does IN. -/
theorem inFromPortZeroWaitsForAByte : Obligations.InFromPortZeroWaitsForAByte := by
  intro b s hb hc hi
  have hwaits : portIn 0 s = .waits := (portIn_zero s).trans (port0In_of_notYet (charGet_of_ready_nil hc hi))
  exact execInput_of_waits hb hwaits

end Sys2Proof.Machine
end

section

/-! The input and output family (41_input_output.md): what each port answers, as equations under the condition that selects
the answer, and what the core does around a port transaction that is done. -/

namespace Sys2Proof.Machine

/-! IN and OUT around the port: an index out of range faults first, and a transaction that is done ends in pc + 3 and the
run check. -/

/-- IN checks its index before it touches the port (R73). -/
theorem execInput_of_not_inRange {b : Word} (c : Word) {s : State} (hb : s.mem.inRange b = false) :
    execInput b c s = .next (s.raise .indexError b) := by
  unfold execInput
  rw [(indexOperand_eq_none ..).mpr hb]

/-- OUT checks its index before it touches the port (R76, R77). -/
theorem execOutput_of_not_inRange {a : Word} (c : Word) {s : State} (ha : s.mem.inRange a = false) :
    execOutput a c s = .next (s.raise .indexError a) := by
  unfold execOutput
  rw [(indexOperand_eq_none ..).mpr ha]

/-- Settles O27: the index check comes first, and it faults. -/
theorem inBadIndexFaultsBeforeThePort : Obligations.InBadIndexFaultsBeforeThePort :=
  fun _ c _ hb => execInput_of_not_inRange c hb

/-- Settles O36: the index check comes first, and it faults. -/
theorem outBadIndexFaultsBeforeThePort : Obligations.OutBadIndexFaultsBeforeThePort :=
  fun _ c _ ha => execOutput_of_not_inRange c ha

/-- IN from a port that answers `v` completes: `v` is stored and pc advances; what else changed, the port changed. -/
theorem exec_input_of_done {b c v : Word} {s u : State} (hb : s.mem.inRange b = true) (hp : portIn c s = .done v u) :
    ∃ t : State, exec (.input b c) s = .next t ∧ CoreStored s t b v ∧
      t.io = s.io ∧ t.env = u.env ∧ t.draws = u.draws := by
  obtain ⟨hcfg, hmem, -, hstop, hio, -⟩ := portIn_done_frame hp
  have hexec : execInput b c s = .next ((u.writeCell b.toNat v).goTo s.nextPc) := by
    unfold execInput
    rw [indexOperand_of_inRange hb]
    simp only [hp]
  have hrun : (u.writeCell b.toNat v).stopAt s.nextPc = s.stopAt s.nextPc :=
    stopAt_congr _ s _ (by rw [writeCell_mem, write_size, hmem]) hstop
  refine ⟨_, hexec, ⟨by simp [hcfg], by simp [hmem], fun k => by simp [hmem], by simp [State.nextPc], ?_⟩, by simp [hio],
    by simp, by simp⟩
  rw [goTo_stop, hrun, State.nextPc]

/-- A port output that is done touches neither configuration nor Memory, pc or stop record (R112). -/
theorem portOut_done_frame {p v : Word} {s t : State} {u : Unit} (h : portOut p v s = .done u t) :
    t.cfg = s.cfg ∧ t.mem = s.mem ∧ t.pc = s.pc ∧ t.stop = s.stop := by
  rcases portOut_done_cases h with ⟨rfl, -⟩ | ⟨-, -, rfl⟩ | ⟨-, -, -, rfl⟩ | ⟨-, -, rfl⟩
  · exact ⟨rfl, rfl, rfl, rfl⟩
  · exact ⟨emitChar_cfg .., emitChar_mem .., emitChar_pc .., emitChar_stop ..⟩
  · exact ⟨paintPixel_cfg .., paintPixel_mem .., paintPixel_pc .., paintPixel_stop ..⟩
  · exact ⟨presentAndPoll_cfg .., presentAndPoll_mem .., presentAndPoll_pc .., presentAndPoll_stop ..⟩

/-- OUT to a port that is done completes: pc advances; what else changed, the port changed. -/
theorem exec_output_of_done {a c : Word} {s u : State} (ha : s.mem.inRange a = true)
    (hp : portOut c (s.mem.read a.toNat) s = .done () u) :
    ∃ t : State, exec (.output a c) s = .next t ∧ CoreAdvanced s t ∧
      t.io = u.io ∧ t.env = u.env ∧ t.draws = u.draws := by
  obtain ⟨hcfg, hmem, -, hstop⟩ := portOut_done_frame hp
  have hexec : execOutput a c s = .next (u.goTo s.nextPc) := by
    unfold execOutput
    rw [indexOperand_of_inRange ha]
    simp only [hp]
  have hrun : u.stopAt s.nextPc = s.stopAt s.nextPc := stopAt_congr u s _ (congrArg Memory.size hmem) hstop
  refine ⟨_, hexec, ⟨by simp [hcfg], by simp [hmem], by simp [State.nextPc], ?_⟩, by simp, by simp, by simp⟩
  rw [goTo_stop, hrun, State.nextPc]

/-! The ports by number (R94, R95, R98). -/

theorem ifDisplay_of_hasDisplay {α : Type} {s : State} (hd : s.cfg.hasDisplay = true) (ans : PortAnswer α) :
    ifDisplay s ans = ans := if_pos hd

theorem portIn_one {s : State} (hd : s.cfg.hasDisplay = true) : portIn 1 s = port1In s := ifDisplay_of_hasDisplay hd _

theorem portIn_two {s : State} (hd : s.cfg.hasDisplay = true) : portIn 2 s = port2In s := ifDisplay_of_hasDisplay hd _

theorem portOut_zero (v : Word) (s : State) : portOut 0 v s = port0Out v s := rfl

theorem portOut_one (v : Word) {s : State} (hd : s.cfg.hasDisplay = true) : portOut 1 v s = port1Out v s :=
  ifDisplay_of_hasDisplay hd _

theorem portOut_two (v : Word) {s : State} (hd : s.cfg.hasDisplay = true) : portOut 2 v s = port2Out s :=
  ifDisplay_of_hasDisplay hd _

theorem portOperand_unlisted {p : Word} (h0 : p ≠ 0) (h1 : p ≠ 1) (h2 : p ≠ 2) : portOperand p = .unlisted := by
  unfold portOperand
  rw [if_neg h0, if_neg h1, if_neg h2]

/-- An unlisted port reads 0 (R108). -/
theorem portIn_unlisted {p : Word} (s : State) (h0 : p ≠ 0) (h1 : p ≠ 1) (h2 : p ≠ 2) : portIn p s = .done 0 s := by
  unfold portIn
  rw [portOperand_unlisted h0 h1 h2]

/-- An unlisted port ignores what is written (R108). -/
theorem portOut_unlisted {p : Word} (v : Word) (s : State) (h0 : p ≠ 0) (h1 : p ≠ 1) (h2 : p ≠ 2) :
    portOut p v s = .done () s := by
  unfold portOut
  rw [portOperand_unlisted h0 h1 h2]

/-- Settles O19: the port answers 0 in the same state, and IN stores it. -/
theorem inFromAnUnlistedPortStoresZero : Obligations.InFromAnUnlistedPortStoresZero :=
  fun _ _ s hb h0 h1 h2 => exec_input_of_done hb (portIn_unlisted s h0 h1 h2)

/-- Settles O35: the port is done in the same state, and OUT advances. -/
theorem outToAnUnlistedPortOnlyAdvances : Obligations.OutToAnUnlistedPortOnlyAdvances := by
  intro a c s ha h0 h1 h2
  obtain ⟨t, hexec, hcore, hio, henv, hdraws⟩ := exec_output_of_done ha (portOut_unlisted _ s h0 h1 h2)
  exact ⟨t, hexec, hcore, henv, hio, hdraws⟩

/-! Port 0 (R99, R100). -/

/-- A supplied byte is what `CharGet` answers, whether or not the stream has ended behind it. -/
theorem charGet_of_cons {env : Env} {k : Byte} {rest : List Byte} (hc : env.charInCond ≠ .failed)
    (hi : env.charIn = k :: rest) : charGet env = .byte k := by
  unfold charGet
  rw [hi]
  cases h : env.charInCond with
  | failed => exact absurd h hc
  | ready => rfl
  | ended => rfl

/-- A byte widened to a cell is not negative: it is the same number. -/
theorem toInt_setWidth_byte (k : Byte) : (k.setWidth 64 : Word).toInt = k.toNat := by
  have hk := k.isLt
  rw [BitVec.toInt_setWidth]
  exact Int.bmod_eq_of_le (by omega) (by omega)

/-- Settles O20: the byte `CharGet` answers is consumed, and IN stores it, zero-extended. -/
theorem inFromPortZeroStoresTheNextByte : Obligations.InFromPortZeroStoresTheNextByte := by
  intro b s k rest hb hc hi
  have hport : portIn 0 s = .done (k.setWidth 64) s.consumeChar := by
    rw [portIn_zero, port0In, charGet_of_cons hc hi]
  obtain ⟨t, hexec, hcore, hio, henv, hdraws⟩ := exec_input_of_done hb hport
  exact ⟨t, _, hexec, hcore, toInt_setWidth_byte k, by rw [henv, consumeChar_env, hi, List.tail_cons], hio, hdraws⟩

theorem isByteValue_iff (v : Word) : isByteValue v = true ↔ 0 ≤ v.toInt ∧ v.toInt ≤ 255 := by simp [isByteValue]

/-- The low byte of a byte value is the same number. -/
theorem toNat_setWidth_of_isByteValue {v : Word} (h : isByteValue v = true) :
    ((v.setWidth 8 : Byte).toNat : Int) = v.toInt := by
  obtain ⟨h0, h255⟩ := (isByteValue_iff v).mp h
  have hv := toNat_of_nonneg h0
  rw [BitVec.toNat_setWidth, Nat.mod_eq_of_lt (by omega), hv]

theorem port0Out_of_isByteValue {v : Word} {s : State} (hv : isByteValue v = true) (hf : s.env.charOutFails = false) :
    port0Out v s = .done () (s.emitChar (v.setWidth 8)) := by
  rw [port0Out, if_pos hv, hf, if_neg Bool.false_ne_true]

theorem port0Out_of_not_isByteValue {v : Word} (s : State) (hv : isByteValue v = false) : port0Out v s = .done () s := by
  rw [port0Out, hv, if_neg Bool.false_ne_true]

/-- Settles O30: port 0 emits the low byte of the value, which is the value. -/
theorem outToPortZeroEmitsTheByte : Obligations.OutToPortZeroEmitsTheByte := by
  intro a s ha hf h0 h255
  have hbyte : isByteValue (s.mem.read a.toNat) = true := (isByteValue_iff _).mpr ⟨h0, h255⟩
  have hport := (portOut_zero _ s).trans (port0Out_of_isByteValue hbyte hf)
  obtain ⟨t, hexec, hcore, hio, henv, hdraws⟩ := exec_output_of_done ha hport
  exact ⟨t, _, hexec, hcore, toNat_setWidth_of_isByteValue hbyte, henv, hio, hdraws⟩

/-- Settles O31: the value is no byte, so port 0 does nothing, whether or not the stream can be written. -/
theorem outToPortZeroDropsOtherValues : Obligations.OutToPortZeroDropsOtherValues := by
  intro a s ha hv
  have hbyte : isByteValue (s.mem.read a.toNat) = false := by
    rw [Bool.eq_false_iff, ne_eq, isByteValue_iff]
    omega
  have hport := (portOut_zero _ s).trans (port0Out_of_not_isByteValue s hbyte)
  obtain ⟨t, hexec, hcore, hio, henv, hdraws⟩ := exec_output_of_done ha hport
  exact ⟨t, hexec, hcore, henv, hio, hdraws⟩

/-! Port 1: the keys and the raster (R104, R105). -/

theorem mem_keysHeld (ks : KeySet) (k : Key) : k ∈ keysHeld ks ↔ isKeyHeld ks k = true := by
  cases k <;> simp [keysHeld]

/-- The key code (R105): 0 with no key held, otherwise the code of a held key, whichever KEY_SELECT picks. -/
theorem keyCode_cases (ks : KeySet) :
    ((∀ k, isKeyHeld ks k = false) ∧ keyCode ks = 0) ∨ ∃ j, isKeyHeld ks j = true ∧ keyCode ks = codeOfKey j := by
  unfold keyCode
  split
  case h_1 hnil => exact Or.inl ⟨fun k => by simp [← Bool.not_eq_true, ← mem_keysHeld, hnil], rfl⟩
  case h_2 k hone => exact Or.inr ⟨k, by simp [← mem_keysHeld, hone], rfl⟩
  case h_3 k more _ hmore =>
    have hlt : Config.keySelect ks % (k :: more).length < (k :: more).length := Nat.mod_lt _ (by simp)
    refine Or.inr ⟨_, ?_, rfl⟩
    rw [← mem_keysHeld, hmore, List.getD_eq_getElem _ _ hlt]
    exact List.getElem_mem hlt

/-- Settles O24: a close request answers its code, otherwise the keys held answer theirs; the state stays. -/
theorem inFromPortOneStoresAKeyCode : Obligations.InFromPortOneStoresAKeyCode := by
  intro b s hb hd
  obtain ⟨t, hexec, hcore, hio, henv, hdraws⟩ := exec_input_of_done hb (portIn_one hd)
  refine ⟨t, _, hexec, hcore, hio, henv, hdraws, fun hq => if_pos hq, fun hq hnone => ?_, fun hq k hk => ?_⟩
  all_goals rw [hq, if_neg Bool.false_ne_true]
  · rcases keyCode_cases s.env.keys with ⟨-, h⟩ | ⟨j, hj, -⟩
    · exact h
    · simp [hnone] at hj
  · rcases keyCode_cases s.env.keys with ⟨hnone, -⟩ | h
    · simp [hnone] at hk
    · exact h

/-! The raster by its elements. -/

/-- The position of a raster element determines the element (R104). -/
theorem rasterIndex_inj {cfg : Config} {x y x' y' : Nat} (hx : x < cfg.rasterW) (hx' : x' < cfg.rasterW) :
    rasterIndex cfg x y = rasterIndex cfg x' y' ↔ x = x' ∧ y = y' := by
  refine ⟨fun h => ?_, fun ⟨h, h'⟩ => by rw [h, h']⟩
  have hmod := congrArg (· % cfg.rasterW) h
  have hdiv := congrArg (· / cfg.rasterW) h
  have hw : 0 < cfg.rasterW := by omega
  simp only [rasterIndex, Nat.mul_add_mod_self_right, Nat.mod_eq_of_lt hx, Nat.mod_eq_of_lt hx'] at hmod
  simp only [rasterIndex, Nat.add_comm (_ * _), Nat.add_mul_div_right _ _ hw, Nat.div_eq_of_lt hx, Nat.div_eq_of_lt hx',
    Nat.zero_add] at hdiv
  exact ⟨hmod, hdiv⟩

/-- A read after painting: the colour at the painted element, every other element as before. -/
theorem read_paint {cfg : Config} (r : Raster) {x y x' y' : Nat} (col : Colour) (hx : x < cfg.rasterW)
    (hx' : x' < cfg.rasterW) :
    (r.paint cfg x y col).read cfg x' y' = if x' = x ∧ y' = y then col else r.read cfg x' y' := by
  simp only [Raster.read, Raster.paint, cellsGet_set, rasterIndex_inj hx' hx]
  split <;> rfl

/-! The cursor one cell on (R104): within a row, at the end of a row, at the end of the raster. -/

theorem advanceCursor_of_lt {cfg : Config} {io : Controller} (hx : io.curX + 1 < cfg.rasterW) :
    (advanceCursor cfg io).curX = io.curX + 1 ∧ (advanceCursor cfg io).curY = io.curY := by
  rw [advanceCursor, if_neg hx.ne]
  exact ⟨rfl, rfl⟩

theorem advanceCursor_of_rowEnd {cfg : Config} {io : Controller} (hx : io.curX + 1 = cfg.rasterW)
    (hy : io.curY + 1 < cfg.rasterH) : (advanceCursor cfg io).curX = 0 ∧ (advanceCursor cfg io).curY = io.curY + 1 := by
  rw [advanceCursor, if_pos hx, if_neg hy.ne]
  exact ⟨rfl, rfl⟩

theorem advanceCursor_of_rasterEnd {cfg : Config} {io : Controller} (hx : io.curX + 1 = cfg.rasterW)
    (hy : io.curY + 1 = cfg.rasterH) : (advanceCursor cfg io).curX = 0 ∧ (advanceCursor cfg io).curY = 0 := by
  rw [advanceCursor, if_pos hx, if_pos hy]
  exact ⟨rfl, rfl⟩

/-- Settles O33: the raster read after the paint, and the cursor moved by `advanceCursor`'s three cases. -/
theorem outToPortOnePaintsAndAdvancesTheCursor : Obligations.OutToPortOnePaintsAndAdvancesTheCursor := by
  intro a s ha hd hx hy col
  have hcursor : cursorInRaster s.cfg s.io = true := (cursorInRaster_iff ..).mpr ⟨hx, hy⟩
  have hport : portOut 1 (s.mem.read a.toNat) s = .done () (s.paintPixel col) :=
    (portOut_one _ hd).trans (if_pos hcursor)
  obtain ⟨t, hexec, hcore, hio, henv, hdraws⟩ := exec_output_of_done ha hport
  rw [paintPixel_io] at hio
  refine ⟨t, hexec, hcore, ?_, fun x y hxw hne => ?_, fun hlt => ?_, fun hend hlt => ?_, fun hend hlast => ?_, ?_, hdraws,
    henv⟩
  · rw [hio, advanceCursor_raster, read_paint _ _ hx hx, if_pos ⟨rfl, rfl⟩]
  · rw [hio, advanceCursor_raster, read_paint _ _ hx hxw, if_neg (by tauto)]
  · rw [hio]; exact advanceCursor_of_lt hlt
  · rw [hio]; exact advanceCursor_of_rowEnd hend hlt
  · rw [hio]; exact advanceCursor_of_rasterEnd hend hlast
  · rw [hio, advanceCursor_quit]

/-! Port 2: the random sample, and present and poll (R106, R107). -/

theorem random32_of_cons {s : State} {r : BitVec 32} {rest : List (BitVec 32)} (h : s.env.randoms = r :: rest) :
    random32 s = (r, { s with env := { s.env with randoms := rest } }) := by
  rw [random32, h]

theorem random32_of_nil {s : State} (h : s.env.randoms = []) :
    random32 s = (Config.freeRandom s.draws, s.countDraw) := by
  rw [random32, h]

/-- Settles O26: the sample `Random32` answers, sign-extended; it is consumed when one was ready. -/
theorem inFromPortTwoStoresASignedSample : Obligations.InFromPortTwoStoresASignedSample := by
  intro b s hb hd
  obtain ⟨t, hexec, hcore, hio, henv, hdraws⟩ := exec_input_of_done hb (portIn_two hd)
  refine ⟨t, (random32 s).1, _, hexec, hcore, BitVec.toInt_signExtend_of_le (by decide), hio, fun r rest hr => ?_,
    fun hr => ?_⟩
  · rw [random32_of_cons hr] at henv hdraws ⊢
    exact ⟨rfl, henv, hdraws⟩
  · rw [henv, random32_of_nil hr, countDraw_env]

/-- Settles O34: port 2 presents and polls whatever the value, and the latch is the disjunction of the two requests. -/
theorem outToPortTwoPresentsAndPolls : Obligations.OutToPortTwoPresentsAndPolls := by
  intro a s ha hd
  obtain ⟨t, hexec, hcore, hio, henv, hdraws⟩ := exec_output_of_done ha (portOut_two _ hd)
  rw [presentAndPoll_io] at hio
  exact ⟨t, hexec, hcore, by rw [hio], by rw [hio], by rw [hio], by simp [hio], hdraws, henv⟩

/-! The frames. -/

/-- A port input that is done, by what it consumed (R94). -/
theorem portIn_done_cases {p v : Word} {s t : State} (h : portIn p s = .done v t) :
    t = s ∨ (p = 0 ∧ (∃ k rest, s.env.charIn = k :: rest) ∧ t = s.consumeChar) ∨ (p = 2 ∧ t = (random32 s).2) := by
  rcases portIn_cases p s with ⟨hp, e⟩ | ⟨-, e⟩ | ⟨hp, e⟩ | ⟨-, -, -, e⟩ <;> rw [e] at h
  · rcases port0In_cases s with ⟨k, rest, -, hi, e⟩ | ⟨-, e⟩ | ⟨-, -, e⟩ | ⟨w, -, -, -, e⟩ <;> rw [e] at h <;> simp at h
    · exact Or.inr (Or.inl ⟨hp, ⟨k, rest, hi⟩, h.2.symm⟩)
    · exact Or.inl h.2.symm
  · rcases ifDisplay_cases s (port1In s) with ⟨-, e⟩ | ⟨-, e⟩ <;> rw [e] at h <;> simp [port1In] at h
    exact Or.inl h.2.symm
  · rcases ifDisplay_cases s (port2In s) with ⟨-, e⟩ | ⟨-, e⟩ <;> rw [e] at h <;> simp [port2In] at h
    exact Or.inr (Or.inr ⟨hp, h.2.symm⟩)
  · simp at h
    exact Or.inl h.2.symm

/-- What a port input consumes: a byte from port 0 only, a sample or a draw from port 2 only. -/
theorem portIn_done_consumes {p v : Word} {s t : State} (h : portIn p s = .done v t) :
    (t.env.charIn = s.env.charIn ∨ p = 0 ∧ ∃ k, s.env.charIn = k :: t.env.charIn) ∧
    (t.env.randoms = s.env.randoms ∨ p = 2 ∧ ∃ r, s.env.randoms = r :: t.env.randoms) ∧
    (t.draws = s.draws ∨ p = 2) := by
  rcases portIn_done_cases h with rfl | ⟨hp, ⟨k, rest, hi⟩, rfl⟩ | ⟨hp, rfl⟩
  · simp
  · simp [hp, hi]
  · rcases random32_cases s with ⟨r, rest, hr, e⟩ | ⟨hr, e⟩ <;> simp [hp, hr, e]

/-- Settles O28: a port that is done consumes by `portIn_done_consumes` and the core writes `b`'s cell; every other outcome
changes the stop record at most. -/
theorem inFrame : Obligations.InFrame := by
  intro b c s t h
  rcases execInput_next h with ⟨-, rfl⟩ | ⟨hb, ⟨v, u, hp, rfl⟩ | ⟨-, rfl⟩ | ⟨-, -, rfl⟩⟩
  · simp
  · obtain ⟨hcfg, hmem, -, -, hio, henv⟩ := portIn_done_frame hp
    obtain ⟨hchars, hrandoms, hdraws⟩ := portIn_done_consumes hp
    refine ⟨by simp [hcfg], by simp [hio], by simp [hmem], by simpa using henv, by simpa using hchars,
      by simpa using hrandoms, by simpa using hdraws, fun k hk => ?_⟩
    have hne : k ≠ b.toNat := fun hkb => hk ((indexOperand_of_inRange hb).trans (congrArg some hkb.symm))
    simp [hmem, hne]
  · simp
  · simp

/-- Settles O37: each port that is done changes what its operation changes, a failed `CharPut` is port 0's, and every other
outcome changes the stop record at most. -/
theorem outFrame : Obligations.OutFrame := by
  intro a c s t h
  rcases execOutput_next h with ⟨-, rfl⟩ | ⟨-, ⟨u, hp, rfl⟩ | ⟨-, rfl⟩ | ⟨u, hp, rfl⟩⟩
  · simp
  · rcases portOut_done_cases hp with ⟨rfl, -⟩ | ⟨hc, -, rfl⟩ | ⟨hc, -, -, rfl⟩ | ⟨hc, -, rfl⟩
    · simp
    · simp [hc]
    · simp [hc]
    · simp [hc]
  · simp
  · obtain ⟨hc, -, -, rfl⟩ := portOut_ioError hp
    simp [hc]

end Sys2Proof.Machine
end

section
/-! HALT (R81): it stops the machine normally, and `stopNormally` changes the stop record only (R70). -/

namespace Sys2Proof.Machine

/-- HALT's arm: neither operand is used as an index, and no run check follows. -/
theorem exec_halt (a b : Word) (s : State) : exec (.halt a b) s = .next (s.stopNormally .haltInstr) := rfl

/-- `stop(k)` as one record update (R70). -/
theorem stopNormally_eq (s : State) (k : Cause) : s.stopNormally k = { s with stop := ⟨.halted, k, 0⟩ } := rfl

/-- Settles O18: HALT is a normal stop with HALT_INSTR, whatever its operands, and that is an update of the stop record. -/
theorem haltOnlyStops : Obligations.HaltOnlyStops := by
  intro a b s
  rw [exec_halt, stopNormally_eq]

end Sys2Proof.Machine
end

section

/-! The SUBLEQ family (43_subtract_branch.md): the wrapped difference by the period of `wrap64`, and the branch, the fault and
the frame by the cases of `execSubleq`. -/

namespace Sys2Proof.Machine

/-! The difference (R7, R86). -/

theorem toInt_wrap64_of_fits {z : Int} (hlo : -2 ^ 63 ≤ z) (hhi : z ≤ 2 ^ 63 - 1) : (wrap64 z).toInt = z := by
  rw [wrap64, BitVec.toInt_ofInt]
  exact Int.bmod_eq_of_le (by omega) (by omega)

/-- `wrap64` has the period 2^64 (R7). -/
theorem wrap64_add_period (z : Int) : wrap64 (z + 2 ^ 64) = wrap64 z := by
  apply BitVec.eq_of_toInt_eq
  rw [wrap64, wrap64, BitVec.toInt_ofInt, BitVec.toInt_ofInt]
  exact Int.add_bmod_right z (2 ^ 64)

theorem wrap64_sub_period (z : Int) : wrap64 (z - 2 ^ 64) = wrap64 z := by
  rw [← wrap64_add_period, Int.sub_add_cancel]

/-- The difference is the machine word subtraction: the low 64 bits of the exact one (R86). -/
theorem difference_eq_sub (x y : Word) : difference x y = x - y := by
  apply BitVec.eq_of_toInt_eq
  rw [difference, wrap64, BitVec.toInt_ofInt, BitVec.toInt_sub]

/-- Settles O14: each range is moved by at most one period into the signed 64-bit numbers, where `wrap64` is exact; the
difference of two words is never further off. -/
theorem differenceWrapsAroundSilently : Obligations.DifferenceWrapsAroundSilently := by
  intro x y z
  have hx : -2 ^ 63 ≤ x.toInt ∧ x.toInt < 2 ^ 63 := ⟨x.le_toInt, x.toInt_lt⟩
  have hy : -2 ^ 63 ≤ y.toInt ∧ y.toInt < 2 ^ 63 := ⟨y.le_toInt, y.toInt_lt⟩
  have hd : difference x y = wrap64 z := rfl
  refine ⟨fun hlo hhi => ?_, fun habove => ?_, fun hbelow => ?_, difference_eq_sub x y⟩
  · rw [hd, toInt_wrap64_of_fits hlo hhi]
  · rw [hd, ← wrap64_sub_period, toInt_wrap64_of_fits (by omega) (by omega)]
    exact ⟨rfl, by omega⟩
  · rw [hd, ← wrap64_add_period, toInt_wrap64_of_fits (by omega) (by omega)]
    exact ⟨rfl, by omega⟩

/-! SUBLEQ with good indices: the store and the branch (R85, R87). -/

theorem notPositive_iff (r : Word) : notPositive r = true ↔ r.toInt ≤ 0 := decide_eq_true_iff

/-- Zero or the sign bit set is not positive as a signed number (R87). -/
theorem toInt_nonpos_of_zero_or_msb {r : Word} (h : r = 0 ∨ r.msb = true) : r.toInt ≤ 0 := by
  rcases h with rfl | hmsb
  · exact le_rfl
  · exact (BitVec.toInt_neg_of_msb_true hmsb).le

/-- SUBLEQ with both indices in range: the difference stored, and the branch on its sign (R85, R87). -/
theorem exec_subleq_of_inRange {a b : Word} (c : Word) {s : State} (ha : s.mem.inRange a = true)
    (hb : s.mem.inRange b = true) :
    exec (.subleq a b c) s = .next
      ((s.writeCell a.toNat (difference (s.mem.read a.toNat) (s.mem.read b.toNat))).goTo
        (if (difference (s.mem.read a.toNat) (s.mem.read b.toNat)).toInt ≤ 0 then c else s.pc + 3)) := by
  refine (execSubleq_eq a b c s).trans ?_
  simp only [ha, hb, Bool.true_eq_false, if_false, notPositive_iff, State.nextPc]

/-- Settles O11: the store is `read_write`, and the branch ends in the run check, whose stop record depends on SIZE and the
old one only. -/
theorem subleqSubtractsStoresAndBranches : Obligations.SubleqSubtractsStoresAndBranches := by
  intro a b c s ha hb r target
  have hexec : exec (.subleq a b c) s = .next ((s.writeCell a.toNat r).goTo target) := exec_subleq_of_inRange c ha hb
  have hstop : ((s.writeCell a.toNat r).goTo target).stop = s.stopAt target :=
    (goTo_stop ..).trans (stopAt_congr _ s target rfl rfl)
  exact ⟨_, hexec, by simp, by simp, goTo_pc .., hstop, by simp, by simp, by simp, by simp⟩

/-- Settles O15: the stored difference is the low 64 bits, and the branch goes by its sign. -/
theorem branchFollowsTheWrappedSign : Obligations.BranchFollowsTheWrappedSign := by
  intro a b c s ha hb r
  have hexec := exec_subleq_of_inRange c ha hb
  rw [difference_eq_sub] at hexec
  refine ⟨fun htaken => ⟨_, hexec, ?_⟩, fun hpos _ => ⟨_, hexec, ?_⟩⟩
  · rw [goTo_pc, if_pos (toInt_nonpos_of_zero_or_msb htaken)]
  · rw [goTo_pc, if_neg (not_le.mpr hpos)]

/-! SUBLEQ with a bad index, its frame, and who branches (R85, R88, R122). -/

/-- Settles O12: the two checks in their order, each failing one a raise of IndexError. -/
theorem subleqBadIndexFaults : Obligations.SubleqBadIndexFaults := by
  intro a b c s
  refine ⟨fun ha => (execSubleq_eq a b c s).trans ?_, fun ha hb => (execSubleq_eq a b c s).trans ?_⟩
  · rw [if_pos ha, State.raise]
  · rw [if_neg (by simp [ha]), if_pos hb, State.raise]

/-- Settles O13: a fault changes the stop record only, and a SUBLEQ that completes writes `a`'s cell. -/
theorem subleqFrame : Obligations.SubleqFrame := by
  intro a b c s t h
  rcases execSubleq_next h with ⟨-, rfl⟩ | ⟨-, -, rfl⟩ | ⟨ha, -, r, -, rfl⟩
  · simp
  · simp
  · refine ⟨by simp, by simp, by simp, by simp, by simp, fun k hk => ?_⟩
    have hne : k ≠ a.toNat := fun hka => hk ((indexOperand_of_inRange ha).trans (congrArg some hka.symm))
    simp [hne]

/-- Settles O46: IN and OUT go to pc + 3 when their port is done, SUBLEQ to pc + 3 or its `c`; a wait, a fault and HALT keep
pc. -/
theorem onlySubleqBranches : Obligations.OnlySubleqBranches := by
  intro i s t h
  cases i with
  | input b c =>
    rcases execInput_next h with ⟨-, rfl⟩ | ⟨-, ⟨v, u, -, rfl⟩ | ⟨-, rfl⟩ | ⟨-, -, rfl⟩⟩
    · exact Or.inl (raise_pc ..)
    · exact Or.inr (Or.inl (goTo_pc ..))
    · exact Or.inl rfl
    · exact Or.inl (raise_pc ..)
  | output a c =>
    rcases execOutput_next h with ⟨-, rfl⟩ | ⟨-, ⟨u, -, rfl⟩ | ⟨-, rfl⟩ | ⟨u, hp, rfl⟩⟩
    · exact Or.inl (raise_pc ..)
    · exact Or.inr (Or.inl (goTo_pc ..))
    · exact Or.inl rfl
    · obtain ⟨-, -, -, rfl⟩ := portOut_ioError hp
      exact Or.inl ((raise_pc ..).trans (failedPut_pc ..))
  | halt a b =>
    obtain rfl : s.stopNormally .haltInstr = t := Host.Outcome.next.inj h
    exact Or.inl (stopNormally_pc ..)
  | subleq a b c =>
    rcases execSubleq_next h with ⟨-, rfl⟩ | ⟨-, -, rfl⟩ | ⟨-, -, r, -, rfl⟩
    · exact Or.inl (raise_pc ..)
    · exact Or.inl (raise_pc ..)
    · rw [goTo_pc]
      split
      · exact Or.inr (Or.inr ⟨a, b, c, rfl, rfl⟩)
      · exact Or.inr (Or.inl rfl)

end Sys2Proof.Machine
end

section

/-! The I/O controller family (44_io_controller.md): the answers of a port by what they say (R94 to R96, R109, R111), what IN
and OUT make of a port that fails or is refused, the gradient by its bounds and end points (R101 to R103), and the cursor by
its row-major position (R104). -/

namespace Sys2Proof.Machine

/-! The ports without a function, and the ports of the display (R108, R113). -/

/-- Settles O43: both are the answer of the unlisted port, in the same state. -/
theorem unlistedPortsReadZeroAndIgnoreWrites : Obligations.UnlistedPortsReadZeroAndIgnoreWrites :=
  fun _ v s h0 h1 h2 => ⟨portIn_unlisted s h0 h1 h2, portOut_unlisted v s h0 h1 h2⟩

theorem ifDisplay_of_not_hasDisplay {α : Type} {s : State} (hd : s.cfg.hasDisplay = false) (ans : PortAnswer α) :
    ifDisplay s ans = .noDisplay := by
  rw [ifDisplay, hd, if_neg Bool.false_ne_true]

/-- IN from a refused port of the display is refused. -/
theorem execInput_of_noDisplay {b c : Word} {s : State} (hb : s.mem.inRange b = true) (hp : portIn c s = .noDisplay) :
    execInput b c s = .refused .noDisplay := by
  rw [execInput, indexOperand_of_inRange hb]
  simp only [hp]

/-- OUT to a refused port of the display is refused. -/
theorem execOutput_of_noDisplay {a c : Word} {s : State} (ha : s.mem.inRange a = true)
    (hp : portOut c (s.mem.read a.toNat) s = .noDisplay) : execOutput a c s = .refused .noDisplay := by
  rw [execOutput, indexOperand_of_inRange ha]
  simp only [hp]

/-- Settles O38: ports 1 and 2 are the two that ask for a display, in both directions. -/
theorem displayPortsAreRefusedWithoutADisplay : Obligations.DisplayPortsAreRefusedWithoutADisplay := by
  intro i c s hd hi hc
  have hin : portIn c s = .noDisplay := by
    rcases hc with rfl | rfl
    · exact ifDisplay_of_not_hasDisplay hd (port1In s)
    · exact ifDisplay_of_not_hasDisplay hd (port2In s)
  have hout : portOut c (s.mem.read i.toNat) s = .noDisplay := by
    rcases hc with rfl | rfl
    · exact ifDisplay_of_not_hasDisplay hd (port1Out _ s)
    · exact ifDisplay_of_not_hasDisplay hd (port2Out s)
  exact ⟨execInput_of_noDisplay hi hin, execOutput_of_noDisplay hi hout⟩

/-! What a port may answer: its values (R96), a wait (R109), a failure (R111). -/

/-- Port-0 input that is done returns a byte, or the value of EOF_POLICY (R99). -/
theorem port0In_done_value {s t : State} {v : Word} (h : port0In s = .done v t) :
    0 ≤ v.toInt ∧ v.toInt ≤ 255 ∨ s.cfg.eofPolicy = .returns v := by
  rcases port0In_cases s with ⟨k, rest, -, -, e⟩ | ⟨-, e⟩ | ⟨-, -, e⟩ | ⟨w, -, -, hw, e⟩ <;> rw [e] at h
  · obtain ⟨rfl, -⟩ := PortAnswer.done.inj h
    have hk := k.isLt
    rw [toInt_setWidth_byte]
    omega
  · nomatch h
  · nomatch h
  · obtain ⟨rfl, -⟩ := PortAnswer.done.inj h
    exact Or.inr hw

theorem codeOfKey_mem (k : Key) : codeOfKey k ∈ [(0 : Word), 10, 27, 128, 129, 130, 131] := by
  cases k <;> decide

/-- Port-1 input returns a key code (R105): the close request's, 0, or a held key's. -/
theorem port1In_done_value {s t : State} {v : Word} (h : port1In s = .done v t) :
    v ∈ [(0 : Word), 10, 27, 128, 129, 130, 131] := by
  obtain ⟨rfl, -⟩ := PortAnswer.done.inj h
  split
  · decide
  · rcases keyCode_cases s.env.keys with ⟨-, e⟩ | ⟨j, -, e⟩ <;> rw [e]
    · decide
    · exact codeOfKey_mem j

/-- Port-2 input returns a signed 32-bit number: sign extension keeps the sample's value (R106). -/
theorem port2In_done_value {s t : State} {v : Word} (h : port2In s = .done v t) :
    -2 ^ 31 ≤ v.toInt ∧ v.toInt ≤ 2 ^ 31 - 1 := by
  obtain ⟨rfl, -⟩ := PortAnswer.done.inj h
  rw [BitVec.toInt_signExtend_of_le (by decide)]
  exact ⟨BitVec.le_toInt _, Int.le_sub_one_of_lt (BitVec.toInt_lt (x := (random32 s).1))⟩

/-- A display port that is done is the port's own answer. -/
theorem eq_done_of_ifDisplay {α : Type} {s t : State} {ans : PortAnswer α} {v : α} (h : ifDisplay s ans = .done v t) :
    ans = .done v t := by
  rcases ifDisplay_cases s ans with ⟨-, e⟩ | ⟨-, e⟩ <;> rw [e] at h
  · exact h
  · nomatch h

/-- Settles O29: each port's answer lies in the port's own set. -/
theorem portInputsLieInTheirRanges : Obligations.PortInputsLieInTheirRanges := by
  intro p v s t h
  refine ⟨?_, ?_, ?_, fun h0 h1 h2 => ?_⟩
  · rintro rfl
    exact port0In_done_value h
  · rintro rfl
    exact port1In_done_value (eq_done_of_ifDisplay h)
  · rintro rfl
    exact port2In_done_value (eq_done_of_ifDisplay h)
  · obtain ⟨hv, ht⟩ := PortAnswer.done.inj ((portIn_unlisted s h0 h1 h2).symm.trans h)
    exact ⟨hv.symm, ht.symm⟩

/-- A port input that waits is port 0 with no byte supplied (R72, R109). -/
theorem portIn_waits {p : Word} {s : State} (h : portIn p s = .waits) : p = 0 ∧ s.env.charIn = [] := by
  rcases portIn_cases p s with ⟨hp, e⟩ | ⟨-, e⟩ | ⟨-, e⟩ | ⟨-, -, -, e⟩ <;> rw [e] at h
  · rcases port0In_cases s with ⟨k, rest, -, -, e⟩ | ⟨-, e⟩ | ⟨hi, -, -⟩ | ⟨v, -, hi, -, -⟩
    · nomatch e.symm.trans h
    · nomatch e.symm.trans h
    · exact ⟨hp, hi⟩
    · exact ⟨hp, hi⟩
  · rcases ifDisplay_cases s (port1In s) with ⟨-, e⟩ | ⟨-, e⟩ <;> nomatch e.symm.trans h
  · rcases ifDisplay_cases s (port2In s) with ⟨-, e⟩ | ⟨-, e⟩ <;> nomatch e.symm.trans h
  · nomatch h

/-- No port output waits (R109). -/
theorem portOut_ne_waits (p v : Word) (s : State) : portOut p v s ≠ .waits := by
  intro h
  rcases portOut_cases p v s with ⟨-, e⟩ | ⟨-, e⟩ | ⟨-, e⟩ | ⟨-, -, -, e⟩ <;> rw [e] at h
  · rcases port0Out_cases v s with ⟨-, -, e⟩ | ⟨-, -, e⟩ | ⟨-, e⟩ <;> nomatch e.symm.trans h
  · rcases ifDisplay_cases s (port1Out v s) with ⟨-, e⟩ | ⟨-, e⟩ <;> rw [e] at h
    · rcases port1Out_cases v s with ⟨-, e⟩ | ⟨-, e⟩ <;> nomatch e.symm.trans h
    · nomatch h
  · rcases ifDisplay_cases s (port2Out s) with ⟨-, e⟩ | ⟨-, e⟩ <;> nomatch e.symm.trans h
  · nomatch h

/-- Settles O44: a wait is port-0 input's, and no output port answers one. -/
theorem onlyPortZeroInputWaits : Obligations.OnlyPortZeroInputWaits :=
  fun p v s => ⟨portIn_waits, portOut_ne_waits p v s⟩

/-- Settles O45: a failure is port 0's in both directions, and on output that of a byte it would have emitted. -/
theorem onlyPortZeroFails : Obligations.OnlyPortZeroFails := by
  intro p v s t
  refine ⟨portIn_ioError, fun h => ?_⟩
  obtain ⟨hp, hbyte, hfails, -⟩ := portOut_ioError h
  obtain ⟨h0, h255⟩ := (isByteValue_iff v).mp hbyte
  exact ⟨hp, h0, h255, hfails⟩

/-! A failing port 0: IN and OUT fault with IO_ERROR in the state the transaction leaves (R123). -/

theorem execInput_of_ioError {b c : Word} {s u : State} (hb : s.mem.inRange b = true) (hp : portIn c s = .ioError u) :
    execInput b c s = .next (u.raise .ioError c) := by
  rw [execInput, indexOperand_of_inRange hb]
  simp only [hp]

theorem execOutput_of_ioError {a c : Word} {s u : State} (ha : s.mem.inRange a = true)
    (hp : portOut c (s.mem.read a.toNat) s = .ioError u) : execOutput a c s = .next (u.raise .ioError c) := by
  rw [execOutput, indexOperand_of_inRange ha]
  simp only [hp]

/-- Port-0 input fails on a stream that cannot be read, bytes left or not, and at its end under the default policy. -/
theorem port0In_of_cannotRead {s : State} (h : s.env.charInCond = .failed ∨
    s.env.charInCond = .ended ∧ s.env.charIn = [] ∧ s.cfg.eofPolicy = .ioError) : port0In s = .ioError s := by
  rcases h with hc | ⟨hc, hi, hpolicy⟩
  · simp only [port0In, charGet, hc]
  · simp only [port0In, charGet, hc, hi, hpolicy]

/-- Settles O22: port 0 fails in the same state, and IN raises IOError there. -/
theorem inFromPortZeroFaultsWhenItCannotRead : Obligations.InFromPortZeroFaultsWhenItCannotRead :=
  fun _ _ hb h => execInput_of_ioError hb (port0In_of_cannotRead h)

theorem port0Out_of_charOutFails {v : Word} {s : State} (hv : isByteValue v = true) (hf : s.env.charOutFails = true) :
    port0Out v s = .ioError (s.failedPut (v.setWidth 8)) := by
  rw [port0Out, if_pos hv, if_pos hf]

/-- A failed `CharPut` leaves the environment as it was, or with the byte emitted (log 15). -/
theorem failedPut_env_cases (s : State) (k : Byte) : (s.failedPut k).env = s.env ∨
    (s.failedPut k).env = { s.env with charOut := s.env.charOut ++ [k] } := by
  rw [failedPut_env]
  split
  · exact Or.inr rfl
  · exact Or.inl rfl

/-- Settles O32: port 0 fails in the state of the failed `CharPut`, and OUT raises IOError there. -/
theorem outToPortZeroFaultsWhenItCannotWrite : Obligations.OutToPortZeroFaultsWhenItCannotWrite := by
  intro a s ha hf h0 h255
  have hbyte : isByteValue (s.mem.read a.toNat) = true := (isByteValue_iff _).mpr ⟨h0, h255⟩
  have hexec := execOutput_of_ioError ha ((portOut_zero _ s).trans (port0Out_of_charOutFails hbyte hf))
  exact ⟨_, _, hexec, raise_stop .., toNat_setWidth_of_isByteValue hbyte, by simp, by simp, by simp, by simp,
    failedPut_env_cases s _⟩

/-! The narrowing and the default gradient (R101, R102). -/

theorem pixNarrow_of_isByteValue (cfg : Config) {v : Word} (h : isByteValue v = true) : pixNarrow cfg v = v.setWidth 8 :=
  if_pos h

theorem pixNarrow_of_lowByte {cfg : Config} (h : cfg.pixNarrow = .lowByte) (v : Word) :
    pixNarrow cfg v = v.setWidth 8 := by
  unfold pixNarrow
  split
  · rfl
  · rw [h]

theorem gradientFloor_of_le {v : Nat} (accent : Nat) (h : v ≤ 127) : gradientFloor accent v = accent * (2 * v) / 255 :=
  if_pos h

theorem gradientFloor_of_ge {v : Nat} (accent : Nat) (h : 128 ≤ v) :
    gradientFloor accent v = accent + (255 - accent) * (2 * v - 255) / 255 :=
  if_neg (by omega)

/-- A fraction of at most 255/255 of a number is at most the number. -/
theorem mul_div_255_le (x : Nat) {y : Nat} (h : y ≤ 255) : x * y / 255 ≤ x :=
  Nat.div_le_of_le_mul (Nat.mul_comm x y ▸ Nat.mul_le_mul_right x h)

/-- The default component is a byte: below the middle at most the accent, above it at most the accent and all that is left
to 255. -/
theorem gradientFloor_le {accent v : Nat} (ha : accent ≤ 255) (hv : v ≤ 255) : gradientFloor accent v ≤ 255 := by
  rcases Nat.lt_or_ge 127 v with h | h
  · have hrest := mul_div_255_le (255 - accent) (show 2 * v - 255 ≤ 255 by omega)
    rw [gradientFloor_of_ge accent h]
    omega
  · have hfrac := mul_div_255_le accent (show 2 * v ≤ 255 by omega)
    rw [gradientFloor_of_le accent h]
    omega

/-! The values of R103. -/

theorem gradientFloor_zero (accent : Nat) : gradientFloor accent 0 = 0 := by
  rw [gradientFloor_of_le accent (by decide)]
  omega

theorem gradientFloor_last {accent : Nat} (h : accent ≤ 255) : gradientFloor accent 255 = 255 := by
  rw [gradientFloor_of_ge accent (by decide)]
  omega

theorem gradientFloor_127 {accent : Nat} (h : accent ≤ 255) : gradientFloor accent 127 = accent - 1 := by
  rw [gradientFloor_of_le accent (by decide)]
  omega

theorem gradientFloor_128 {accent : Nat} (h : accent ≤ 255) :
    gradientFloor accent 128 = if accent = 0 then 1 else accent := by
  rw [gradientFloor_of_ge accent (by decide)]
  split <;> omega

/-! A component under either rounding (decision D19, log 12). -/

theorem byte_toNat_le (k : Byte) : k.toNat ≤ 255 := Nat.le_of_lt_succ k.isLt

/-- Another rounding is exact at the end points. -/
theorem gradientOther_of_endPoint (ch : Channel) (accent : Byte) {v : Byte} (h : v = 0 ∨ v = 255) :
    gradientOther ch accent v = gradientFloor accent.toNat v.toNat :=
  if_pos h

/-- Another rounding is a byte, and lies within 1 of the default. -/
theorem gradientOther_near (ch : Channel) (accent v : Byte) :
    gradientOther ch accent v ≤ 255 ∧ gradientOther ch accent v ≤ gradientFloor accent.toNat v.toNat + 1 ∧
    gradientFloor accent.toNat v.toNat ≤ gradientOther ch accent v + 1 := by
  have hfloor := gradientFloor_le (byte_toNat_le accent) (byte_toNat_le v)
  unfold gradientOther
  split <;> omega

/-- The default component is the floor itself: it fits a byte (R102). -/
theorem component_toNat_of_floor {cfg : Config} (h : cfg.gradient = .floor) (ch : Channel) (accent v : Byte) :
    (component cfg ch accent v).toNat = gradientFloor accent.toNat v.toNat := by
  have hfloor := gradientFloor_le (byte_toNat_le accent) (byte_toNat_le v)
  simp only [component, h, BitVec.toNat_ofNat]
  omega

theorem component_toNat_of_other {cfg : Config} (h : cfg.gradient = .other) (ch : Channel) (accent v : Byte) :
    (component cfg ch accent v).toNat = gradientOther ch accent v := by
  obtain ⟨hother, -, -⟩ := gradientOther_near ch accent v
  simp only [component, h, BitVec.toNat_ofNat]
  omega

/-- Under every rounding a component lies within 1 of the floor. -/
theorem component_near_floor (cfg : Config) (ch : Channel) (accent v : Byte) :
    (component cfg ch accent v).toNat ≤ gradientFloor accent.toNat v.toNat + 1 ∧
    gradientFloor accent.toNat v.toNat ≤ (component cfg ch accent v).toNat + 1 := by
  cases h : cfg.gradient with
  | floor =>
    rw [component_toNat_of_floor h]
    omega
  | other =>
    rw [component_toNat_of_other h]
    exact (gradientOther_near ch accent v).2

/-- Under every rounding a component is exact at the end points. -/
theorem component_toNat_of_endPoint (cfg : Config) (ch : Channel) (accent : Byte) {v : Byte} (hv : v = 0 ∨ v = 255) :
    (component cfg ch accent v).toNat = gradientFloor accent.toNat v.toNat := by
  cases h : cfg.gradient with
  | floor => exact component_toNat_of_floor h ch accent v
  | other => rw [component_toNat_of_other h, gradientOther_of_endPoint ch accent hv]

/-- Settles O39: the narrowing by its two cases, the default component by the floor's two halves, and another rounding by
its distance from the floor. -/
theorem gradientFollowsTheFormula : Obligations.GradientFollowsTheFormula := by
  refine ⟨fun cfg v h0 h255 => ?_, fun cfg v hlow => ?_, fun cfg ch accent v hfloor => ⟨fun hv => ?_, fun hv => ?_⟩,
    fun cfg cfg' ch accent v hfloor => ?_⟩
  · have hbyte : isByteValue v = true := (isByteValue_iff v).mpr ⟨h0, h255⟩
    rw [pixNarrow_of_isByteValue cfg hbyte, toNat_setWidth_of_isByteValue hbyte]
  · rw [pixNarrow_of_lowByte hlow, BitVec.toNat_setWidth]
  · rw [component_toNat_of_floor hfloor, gradientFloor_of_le _ hv, Nat.mul_assoc]
  · rw [component_toNat_of_floor hfloor, gradientFloor_of_ge _ hv]
  · rw [component_toNat_of_floor hfloor]
    exact component_near_floor cfg' ch accent v

theorem component_zero (cfg : Config) (ch : Channel) (accent : Byte) : component cfg ch accent 0 = 0 :=
  BitVec.eq_of_toNat_eq ((component_toNat_of_endPoint cfg ch accent (Or.inl rfl)).trans (gradientFloor_zero _))

theorem component_last (cfg : Config) (ch : Channel) (accent : Byte) : component cfg ch accent 255 = 255 :=
  BitVec.eq_of_toNat_eq
    ((component_toNat_of_endPoint cfg ch accent (Or.inr rfl)).trans (gradientFloor_last (byte_toNat_le accent)))

/-- Settles O40: the end points hold of every component, and the two middle values are the floor's at 128 and 127. -/
theorem gradientEndPoints : Obligations.GradientEndPoints := by
  refine ⟨fun cfg => ⟨by simp only [colourOf, component_zero], by simp only [colourOf, component_last]⟩,
    fun cfg ch accent hfloor => ?_⟩
  have haccent := byte_toNat_le accent
  have h128 : (component cfg ch accent 128).toNat = if accent.toNat = 0 then 1 else accent.toNat :=
    (component_toNat_of_floor hfloor ch accent 128).trans (gradientFloor_128 haccent)
  have h127 : (component cfg ch accent 127).toNat = accent.toNat - 1 :=
    (component_toNat_of_floor hfloor ch accent 127).trans (gradientFloor_127 haccent)
  by_cases h : accent = 0
  · subst h
    exact ⟨BitVec.eq_of_toNat_eq h128, BitVec.eq_of_toNat_eq h127⟩
  · have hne : accent.toNat ≠ 0 := fun h0 => h (BitVec.eq_of_toNat_eq h0)
    rw [if_neg hne] at h128
    rw [if_neg h, if_neg h]
    refine ⟨BitVec.eq_of_toNat_eq h128, BitVec.eq_of_toNat_eq ?_⟩
    rw [h127, BitVec.toNat_sub_of_le (show (1 : Byte) ≤ accent from Nat.one_le_iff_ne_zero.mpr hne)]
    rfl

/-! The cursor by its row-major position (R104). -/

/-- One cell on is one position on, modulo the raster: within a row, at the end of a row, and at the end of the raster,
where both sides are 0. -/
theorem rasterIndex_advanceCursor {cfg : Config} {io : Controller} (h : cursorInRaster cfg io = true) :
    rasterIndex cfg (advanceCursor cfg io).curX (advanceCursor cfg io).curY =
      (rasterIndex cfg io.curX io.curY + 1) % (cfg.rasterW * cfg.rasterH) := by
  have hin := (cursorInRaster_iff ..).mp (cursorInRaster_advanceCursor h)
  have hlt := rasterIndex_lt hin.1 hin.2
  obtain ⟨hx, hy⟩ := (cursorInRaster_iff ..).mp h
  rcases Nat.lt_or_eq_of_le (show io.curX + 1 ≤ cfg.rasterW from hx) with hrow | hrow
  · obtain ⟨ex, ey⟩ := advanceCursor_of_lt hrow
    have hnext : rasterIndex cfg (advanceCursor cfg io).curX (advanceCursor cfg io).curY =
        rasterIndex cfg io.curX io.curY + 1 := by rw [ex, ey]; rfl
    rw [← hnext, Nat.mod_eq_of_lt hlt]
  · have hend : rasterIndex cfg io.curX io.curY + 1 = (io.curY + 1) * cfg.rasterW := by
      rw [rasterIndex, Nat.add_assoc, hrow, Nat.succ_mul]
    rw [hend]
    rcases Nat.lt_or_eq_of_le (show io.curY + 1 ≤ cfg.rasterH from hy) with hcol | hcol
    · obtain ⟨ex, ey⟩ := advanceCursor_of_rowEnd hrow hcol
      rw [ex, ey] at hlt ⊢
      exact (Nat.mod_eq_of_lt hlt).symm
    · obtain ⟨ex, ey⟩ := advanceCursor_of_rasterEnd hrow hcol
      rw [ex, ey, hcol, Nat.mul_comm, Nat.mod_self, rasterIndex, Nat.zero_mul]

/-- Settles O41: the cursor stays in the raster, and its position goes up by one modulo the raster. -/
theorem cursorWalksTheRasterInRowMajorOrder : Obligations.CursorWalksTheRasterInRowMajorOrder := by
  intro cfg io hx hy next
  have h : cursorInRaster cfg io = true := (cursorInRaster_iff ..).mpr ⟨hx, hy⟩
  obtain ⟨hx', hy'⟩ := (cursorInRaster_iff ..).mp (cursorInRaster_advanceCursor h)
  exact ⟨hx', hy', rasterIndex_advanceCursor h⟩

/-- After `n` outputs the cursor is `n` positions on, modulo the raster, and the rest of the controller is as it was. -/
theorem iterate_advanceCursor {cfg : Config} {io : Controller} (h : cursorInRaster cfg io = true) (n : Nat) :
    cursorInRaster cfg ((advanceCursor cfg)^[n] io) = true ∧
    rasterIndex cfg ((advanceCursor cfg)^[n] io).curX ((advanceCursor cfg)^[n] io).curY =
      (rasterIndex cfg io.curX io.curY + n) % (cfg.rasterW * cfg.rasterH) ∧
    ((advanceCursor cfg)^[n] io).raster = io.raster ∧ ((advanceCursor cfg)^[n] io).quit = io.quit := by
  induction n with
  | zero =>
    obtain ⟨hx, hy⟩ := (cursorInRaster_iff ..).mp h
    exact ⟨h, (Nat.mod_eq_of_lt (rasterIndex_lt hx hy)).symm, rfl, rfl⟩
  | succ n ih =>
    obtain ⟨hin, hpos, hraster, hquit⟩ := ih
    rw [Function.iterate_succ_apply']
    refine ⟨cursorInRaster_advanceCursor hin, ?_, (advanceCursor_raster ..).trans hraster,
      (advanceCursor_quit ..).trans hquit⟩
    rw [rasterIndex_advanceCursor hin, hpos, Nat.mod_add_mod, Nat.add_assoc]

/-- Settles O42: after RASTER_W * RASTER_H outputs the position is the same modulo the raster, and a position in the raster
determines the cursor. -/
theorem cursorReturnsAfterAWholeRaster : Obligations.CursorReturnsAfterAWholeRaster := by
  intro cfg io hx hy
  obtain ⟨hin, hpos, hraster, hquit⟩ :=
    iterate_advanceCursor ((cursorInRaster_iff ..).mpr ⟨hx, hy⟩) (cfg.rasterW * cfg.rasterH)
  generalize (advanceCursor cfg)^[cfg.rasterW * cfg.rasterH] io = io' at hin hpos hraster hquit ⊢
  rw [Nat.add_mod_right, Nat.mod_eq_of_lt (rasterIndex_lt hx hy)] at hpos
  obtain ⟨hcurX, hcurY⟩ := (rasterIndex_inj ((cursorInRaster_iff ..).mp hin).1 hx).mp hpos
  calc io' = ⟨io'.curX, io'.curY, io'.raster, io'.quit⟩ := rfl
    _ = io := by rw [hcurX, hcurY, hraster, hquit]

end Sys2Proof.Machine
end

section

/-! The exceptions family (60_exceptions.md): what a fault leaves as it was (R130), what no move of the environment but reset
changes (R127), and how a loader error and an exit code tell the endings apart (R125, R134). -/

namespace Sys2Proof.Machine

/-! A step that faults (R130). -/

/-- The pc update of a RUNNING machine is no fault: its run check leaves the machine RUNNING or stops it normally (R64). -/
theorem goTo_status_ne_faulted {s : State} (target : Word) (hrun : s.stop.status = .running) :
    (s.goTo target).stop.status ≠ .faulted := by
  rw [goTo_stop, stopAt_eq]
  split
  · simp [hrun]
  · simp

/-- An instruction that leaves a RUNNING machine FAULTED raises the fault in the state it started in, or in the one a failed
`CharPut` left (R123, R130). -/
theorem exec_faulted {i : Instr} {s t : State} (hrun : s.stop.status = .running) (h : exec i s = .next t)
    (hf : t.stop.status = .faulted) :
    ∃ u cause info, (u = s ∨ ∃ k, u = s.failedPut k) ∧ t = u.raise cause info := by
  have hgo : ∀ {u : State} {target : Word}, u.stop = s.stop → (u.goTo target).stop.status ≠ .faulted :=
    fun hu => goTo_status_ne_faulted _ (hu ▸ hrun)
  cases i with
  | input b c =>
    rcases execInput_next h with ⟨-, rfl⟩ | ⟨-, ⟨v, u, hp, rfl⟩ | ⟨-, rfl⟩ | ⟨-, -, rfl⟩⟩
    · exact ⟨s, _, _, Or.inl rfl, rfl⟩
    · obtain ⟨-, -, -, hstop, -⟩ := portIn_done_frame hp
      exact absurd hf (hgo hstop)
    · nomatch hrun.symm.trans hf
    · exact ⟨s, _, _, Or.inl rfl, rfl⟩
  | output a c =>
    rcases execOutput_next h with ⟨-, rfl⟩ | ⟨-, ⟨u, hp, rfl⟩ | ⟨-, rfl⟩ | ⟨u, hp, rfl⟩⟩
    · exact ⟨s, _, _, Or.inl rfl, rfl⟩
    · obtain ⟨-, -, -, hstop⟩ := portOut_done_frame hp
      exact absurd hf (hgo hstop)
    · nomatch hrun.symm.trans hf
    · obtain ⟨-, -, -, hu⟩ := portOut_ioError hp
      exact ⟨u, _, _, Or.inr ⟨_, hu⟩, rfl⟩
  | halt a b =>
    obtain rfl := Host.Outcome.next.inj ((exec_halt a b s).symm.trans h)
    nomatch hf
  | subleq a b c =>
    rcases execSubleq_next h with ⟨-, rfl⟩ | ⟨-, -, rfl⟩ | ⟨-, -, r, -, rfl⟩
    · exact ⟨s, _, _, Or.inl rfl, rfl⟩
    · exact ⟨s, _, _, Or.inl rfl, rfl⟩
    · exact absurd hf (hgo (writeCell_stop ..))

/-- A step that leaves a RUNNING machine FAULTED is that of an instruction that faults: the bounds exit is normal (R71). -/
theorem step_faulted {s t : State} (hrun : s.stop.status = .running) (h : step s = .next t)
    (hf : t.stop.status = .faulted) :
    ∃ u cause info, (u = s ∨ ∃ k, u = s.failedPut k) ∧ t = u.raise cause info := by
  rcases step_cases s with ⟨hne, -⟩ | ⟨-, -, e⟩ | ⟨-, -, e⟩
  · exact absurd hrun hne
  · obtain rfl := Host.Outcome.next.inj (e.symm.trans h)
    nomatch hf
  · exact exec_faulted hrun (e ▸ h) hf

/-- Settles O48: a raise changes the stop record only, and a failed `CharPut` before it `char_out` and the draw counter. -/
theorem faultsArePrecise : Obligations.FaultsArePrecise := by
  intro s t hrun h hf
  obtain ⟨u, cause, info, rfl | ⟨k, rfl⟩, rfl⟩ := step_faulted hrun h hf
  · exact ⟨rfl, rfl, rfl, rfl, rfl, Or.inl rfl⟩
  · refine ⟨failedPut_pc .., failedPut_mem .., failedPut_cfg .., failedPut_io .., ?_, ?_⟩
    · rw [raise_env, failedPut_env]
    · rw [raise_env]
      rcases failedPut_env_cases s k with e | e
      · exact Or.inl (congrArg Env.charOut e)
      · exact Or.inr ⟨k, congrArg Env.charOut e⟩

/-! The environment (R127, R148). -/

/-- Settles O56: every move but reset is an update of the environment alone. -/
theorem environmentMovesLeaveTheMachineAlone : Obligations.EnvironmentMovesLeaveTheMachineAlone := by
  intro e s hne
  cases e with
  | reset => exact absurd rfl hne
  | _ => exact ⟨rfl, rfl, rfl, rfl, rfl⟩

/-! Loader errors (R125, R143). -/

/-- One token that is no integer spoils the whole text, whatever stands before and after it. -/
theorem tokenWords_eq_none_of_mem {ts : List (List Char)} {t : List Char} (hmem : t ∈ ts) (ht : tokenWord t = none) :
    tokenWords ts = none := by
  induction ts with
  | nil => nomatch hmem
  | cons t' rest ih =>
    rcases List.mem_cons.mp hmem with rfl | hrest
    · rw [tokenWords, ht]
    · rw [tokenWords, ih hrest]
      cases tokenWord t' <;> rfl

theorem loadImage_of_badToken {cs t : List Char} (hmem : t ∈ tokensFrom [] cs) (ht : tokenWord t = none) :
    loadImage (some cs) = .error .formatError := by
  simp only [loadImage, tokenWords_eq_none_of_mem hmem ht]

/-- On a loader error there is no run (R125). -/
theorem loadProgram_of_error {text : Option (List Char)} {e : LoadError} (s : State) (h : loadImage text = .error e) :
    s.loadProgram text = .error e := by
  simp only [State.loadProgram, h]

/-- Settles O59: the loader's own error, for no text and for a text with a bad token, is the load's. -/
theorem loaderErrorsStartNoRun : Obligations.LoaderErrorsStartNoRun :=
  fun s => ⟨loadProgram_of_error s rfl, fun _ _ hmem ht => loadProgram_of_error s (loadImage_of_badToken hmem ht)⟩

/-! The exit code (R134). -/

theorem exitCode_of_running {s : State} (h : s.stop.status = .running) : exitCode s = none := by
  simp only [exitCode, h]

theorem exitCode_of_halted {s : State} (h : s.stop.status = .halted) : exitCode s = some 0 := by
  simp only [exitCode, h]

theorem exitCode_of_faulted {s : State} (h : s.stop.status = .faulted) : exitCode s = some s.cfg.faultExit := by
  simp only [exitCode, h]

/-- The exit code of a fault is not 0 in a configuration whose parameters lie in their ranges. -/
theorem faultExit_ne_zero_of_wf {cfg : Config} (h : cfg.wf = true) : cfg.faultExit ≠ 0 := by
  simp only [Config.wf, Bool.and_eq_true, decide_eq_true_eq] at h
  exact h.2

/-- Settles O60: the code by the status, and the configured code of a fault is in its range. -/
theorem exitCodeTellsFaultsFromNormalEndings : Obligations.ExitCodeTellsFaultsFromNormalEndings :=
  fun _ hwf => ⟨exitCode_of_halted, fun hf => ⟨_, exitCode_of_faulted hf, faultExit_ne_zero_of_wf hwf⟩,
    exitCode_of_running⟩

end Sys2Proof.Machine
end

section

/-! The reset and hazards family (70_reset_and_hazards.md): a written image read back, token by token (R59, R143), a step
that always answers in a deployment with a display (R154), and the state of a reset with no program (R144). -/

namespace Sys2Proof.Machine

/-! The decimal digits and their value (R59). -/

theorem digitValue_decimalDigit {d : Nat} (h : d < 10) : digitValue (Char.ofNat ('0'.toNat + d)) = some d := by
  revert d
  decide

/-- The digits read after a run of digits go on from that run's value. -/
theorem digitsValue_append (acc : Nat) (xs ys : List Char) :
    digitsValue acc (xs ++ ys) = (digitsValue acc xs).bind fun n => digitsValue n ys := by
  induction xs generalizing acc with
  | nil => rfl
  | cons c xs ih =>
    simp only [List.cons_append, digitsValue]
    cases digitValue c with
    | none => rfl
    | some d => exact ih _

/-- One digit alone reads as itself, after a value already read as its last digit. -/
theorem digitsValue_decimalDigit (acc : Nat) {d : Nat} (h : d < 10) :
    digitsValue acc [Char.ofNat ('0'.toNat + d)] = some (10 * acc + d) := by
  simp only [digitsValue, digitValue_decimalDigit h]

/-- The digits of a number below `10 ^ fuel` read as the number: its last digit follows those of its tenth. -/
theorem digitsValue_decimalDigits {fuel n : Nat} (h : n < 10 ^ fuel) : digitsValue 0 (decimalDigits fuel n) = some n := by
  induction fuel generalizing n with
  | zero =>
    obtain rfl : n = 0 := by simpa using h
    rfl
  | succ fuel ih =>
    unfold decimalDigits
    split_ifs with h10
    · simpa using digitsValue_decimalDigit 0 h10
    · have htenth : n / 10 < 10 ^ fuel := by rw [pow_succ] at h; omega
      rw [digitsValue_append, ih htenth, Option.bind_some, digitsValue_decimalDigit _ (Nat.mod_lt n (by decide)),
        Nat.div_add_mod]

theorem decimalDigits_succ_ne_nil (fuel n : Nat) : decimalDigits (fuel + 1) n ≠ [] := by
  unfold decimalDigits
  split_ifs <;> simp

theorem naturalToken_of_ne_nil {t : List Char} (h : t ≠ []) : naturalToken t = digitsValue 0 t := by
  cases t with
  | nil => exact absurd rfl h
  | cons c rest => rfl

theorem naturalToken_decimalDigits {fuel n : Nat} (h : n < 10 ^ (fuel + 1)) :
    naturalToken (decimalDigits (fuel + 1) n) = some n := by
  rw [naturalToken_of_ne_nil (decimalDigits_succ_ne_nil fuel n), digitsValue_decimalDigits h]

/-! A run of digits with a value holds no separator, and no minus sign in front. -/

theorem digitValue_of_isSeparator {c : Char} (h : isSeparator c = true) : digitValue c = none := by
  simp only [isSeparator, Bool.or_eq_true, decide_eq_true_eq] at h
  obtain ((((rfl | rfl) | rfl) | rfl) | rfl) | rfl := h <;> decide

theorem not_isSeparator_of_digitsValue {acc n : Nat} {t : List Char} (h : digitsValue acc t = some n) :
    ∀ c ∈ t, isSeparator c = false := by
  induction t generalizing acc with
  | nil => nofun
  | cons c rest ih =>
    cases hd : digitValue c with
    | none => simp [digitsValue, hd] at h
    | some d =>
      simp only [digitsValue, hd] at h
      have hc : isSeparator c = false := by
        cases hsep : isSeparator c with
        | false => rfl
        | true => nomatch (digitValue_of_isSeparator hsep).symm.trans hd
      exact List.forall_mem_cons.mpr ⟨hc, ih h⟩

/-- A natural token is a run of digits, and its first character is no minus sign. -/
theorem integerToken_of_naturalToken {t : List Char} {n : Nat} (h : naturalToken t = some n) :
    integerToken t = some (n : Int) := by
  unfold integerToken
  split
  next rest =>
    have hminus : naturalToken ('-' :: rest) = none := rfl
    nomatch hminus.symm.trans h
  next => rw [h]; rfl

/-! The tokens of a text. -/

/-- Characters that are no separators join the token being read. -/
theorem tokensFrom_append {t : List Char} (h : ∀ c ∈ t, isSeparator c = false) (cur rest : List Char) :
    tokensFrom cur (t ++ rest) = tokensFrom (t.reverse ++ cur) rest := by
  induction t generalizing cur with
  | nil => rfl
  | cons c t ih =>
    obtain ⟨hc, ht⟩ := List.forall_mem_cons.mp h
    simp [tokensFrom, hc, ih ht]

/-- A token and a newline in front of a text are one more token in front of the text's tokens. -/
theorem tokensFrom_token {t : List Char} (hne : t ≠ []) (h : ∀ c ∈ t, isSeparator c = false) (rest : List Char) :
    tokensFrom [] (t ++ '\n' :: rest) = t :: tokensFrom [] rest := by
  have hnewline : isSeparator '\n' = true := rfl
  rw [tokensFrom_append h, tokensFrom, if_pos hnewline]
  simp [hne]

/-! The writer (R143, log 22). -/

/-- Every cell value fits the writer's 20 digits. -/
theorem natAbs_toInt_lt (w : Word) : w.toInt.natAbs < 10 ^ 20 := by
  have hlo := w.le_toInt
  have hhi := w.toInt_lt
  norm_num at hlo hhi ⊢
  omega

theorem tokenWord_of_integerToken {t : List Char} {w : Word} (h : integerToken t = some w.toInt) : tokenWord t = some w := by
  have hlo := w.le_toInt
  have hhi := w.toInt_lt
  simp only [tokenWord, h]
  rw [if_pos ⟨by simpa using hlo, by simpa using hhi⟩, BitVec.ofInt_toInt]

/-- A written token reads as its value: the digits of its magnitude, behind a minus sign when it is negative. -/
theorem integerToken_writeToken (w : Word) : integerToken (writeToken w) = some w.toInt := by
  have hdigits := naturalToken_decimalDigits (natAbs_toInt_lt w)
  unfold writeToken
  split_ifs with hneg
  · simp only [integerToken, hdigits, Option.map_some]
    rw [Int.ofNat_natAbs_of_nonpos (le_of_lt hneg), neg_neg]
  · rw [integerToken_of_naturalToken hdigits, Int.natAbs_of_nonneg (not_lt.mp hneg)]

/-- A written token holds no separator: it is a run of digits with a value, with or without a minus sign. -/
theorem not_isSeparator_writeToken (w : Word) : ∀ c ∈ writeToken w, isSeparator c = false := by
  have hdigits := not_isSeparator_of_digitsValue (digitsValue_decimalDigits (natAbs_toInt_lt w))
  unfold writeToken
  split_ifs
  · exact List.forall_mem_cons.mpr ⟨rfl, hdigits⟩
  · exact hdigits

theorem writeToken_ne_nil (w : Word) : writeToken w ≠ [] := by
  unfold writeToken
  split_ifs
  · exact List.cons_ne_nil _ _
  · exact decimalDigits_succ_ne_nil _ _

theorem tokensFrom_writeImage (image : List Word) : tokensFrom [] (writeImage image) = image.map writeToken := by
  induction image with
  | nil => rfl
  | cons w rest ih =>
    rw [writeImage, tokensFrom_token (writeToken_ne_nil w) (not_isSeparator_writeToken w), ih, List.map_cons]

theorem tokenWords_map_writeToken (image : List Word) : tokenWords (image.map writeToken) = some image := by
  induction image with
  | nil => rfl
  | cons w rest ih =>
    simp only [List.map_cons, tokenWords, tokenWord_of_integerToken (integerToken_writeToken w), ih]

/-- Settles O58: the tokens of the written text are those of its values, and each token reads as its value. -/
theorem loadingAWrittenImageReproducesIt : Obligations.LoadingAWrittenImageReproducesIt := by
  intro image
  simp only [loadImage, tokensFrom_writeImage, tokenWords_map_writeToken]

/-! A step answers a next state in a deployment with a display (R154). -/

/-- A port of the display that would answer otherwise is refused only without a display (R113). -/
theorem not_hasDisplay_of_ifDisplay {α : Type} {s : State} {ans : PortAnswer α} (h : ifDisplay s ans = .noDisplay)
    (hans : ans ≠ .noDisplay) : s.cfg.hasDisplay = false := by
  rcases ifDisplay_cases s ans with ⟨-, e⟩ | ⟨hd, -⟩
  · exact absurd (e.symm.trans h) hans
  · exact hd

theorem portIn_noDisplay {p : Word} {s : State} (h : portIn p s = .noDisplay) : s.cfg.hasDisplay = false := by
  rcases portIn_cases p s with ⟨-, e⟩ | ⟨-, e⟩ | ⟨-, e⟩ | ⟨-, -, -, e⟩ <;> rw [e] at h
  · rcases port0In_cases s with ⟨k, rest, -, -, e⟩ | ⟨-, e⟩ | ⟨-, -, e⟩ | ⟨v, -, -, -, e⟩ <;> nomatch e.symm.trans h
  · exact not_hasDisplay_of_ifDisplay h nofun
  · exact not_hasDisplay_of_ifDisplay h nofun
  · nomatch h

theorem port1Out_ne_noDisplay (v : Word) (s : State) : port1Out v s ≠ .noDisplay := by
  intro h
  rcases port1Out_cases v s with ⟨-, e⟩ | ⟨-, e⟩ <;> nomatch e.symm.trans h

theorem portOut_noDisplay {p v : Word} {s : State} (h : portOut p v s = .noDisplay) : s.cfg.hasDisplay = false := by
  rcases portOut_cases p v s with ⟨-, e⟩ | ⟨-, e⟩ | ⟨-, e⟩ | ⟨-, -, -, e⟩ <;> rw [e] at h
  · rcases port0Out_cases v s with ⟨-, -, e⟩ | ⟨-, -, e⟩ | ⟨-, e⟩ <;> nomatch e.symm.trans h
  · exact not_hasDisplay_of_ifDisplay h (port1Out_ne_noDisplay v s)
  · exact not_hasDisplay_of_ifDisplay h nofun
  · nomatch h

/-- IN answers a next state: a bad index faults, and with a display every port is done, waits or fails. -/
theorem execInput_answers (b c : Word) {s : State} (hd : s.cfg.hasDisplay = true) : ∃ t, execInput b c s = .next t := by
  cases hb : s.mem.inRange b with
  | false => exact ⟨_, execInput_of_not_inRange c hb⟩
  | true =>
    cases hp : portIn c s with
    | done v u =>
      obtain ⟨t, hexec, -⟩ := exec_input_of_done hb hp
      exact ⟨t, hexec⟩
    | waits => exact ⟨_, execInput_of_waits hb hp⟩
    | ioError u => exact ⟨_, execInput_of_ioError hb hp⟩
    | noDisplay => simp [portIn_noDisplay hp] at hd
    | noPixel => exact absurd hp (portIn_ne_noPixel c s)

/-- OUT answers a next state: as IN, and with its cursor in the raster port 1 has an element to paint. -/
theorem execOutput_answers (a c : Word) {s : State} (hd : s.cfg.hasDisplay = true)
    (hcursor : cursorInRaster s.cfg s.io = true) : ∃ t, execOutput a c s = .next t := by
  cases ha : s.mem.inRange a with
  | false => exact ⟨_, execOutput_of_not_inRange c ha⟩
  | true =>
    cases hp : portOut c (s.mem.read a.toNat) s with
    | done v u =>
      obtain ⟨t, hexec, -⟩ := exec_output_of_done ha hp
      exact ⟨t, hexec⟩
    | waits => exact absurd hp (portOut_ne_waits c _ s)
    | ioError u => exact ⟨_, execOutput_of_ioError ha hp⟩
    | noDisplay => simp [portOut_noDisplay hp] at hd
    | noPixel =>
      obtain ⟨-, hout⟩ := portOut_noPixel hp
      simp [hout] at hcursor

theorem exec_answers (i : Instr) {s : State} (hd : s.cfg.hasDisplay = true) (hcursor : cursorInRaster s.cfg s.io = true) :
    ∃ t, exec i s = .next t := by
  cases i with
  | input b c => exact execInput_answers b c hd
  | output a c => exact execOutput_answers a c hd hcursor
  | halt a b => exact ⟨_, exec_halt a b s⟩
  | subleq a b c => exact ⟨_, execSubleq_eq a b c s⟩

/-- Settles O49: a step that executes no instruction answers a state, and every instruction does. -/
theorem everyStepAnswersANextState : Obligations.EveryStepAnswersANextState := by
  intro s h hd
  rcases step_cases s with ⟨-, e⟩ | ⟨-, -, e⟩ | ⟨-, -, e⟩
  · exact ⟨_, e⟩
  · exact ⟨_, e⟩
  · rw [e]
    exact exec_answers _ hd h.cursor

/-! The state after a reset with no program (R144). -/

/-- Settles O55: the fields as the model gives them, the step of a machine that is not RUNNING, and the reset of a machine
with no program. -/
theorem resetStateHasNoProgram : Obligations.ResetStateHasNoProgram :=
  ⟨rfl, rfl, rfl, rfl, step_of_not_running (by decide), reset_eq_applyReset⟩

end Sys2Proof.Machine
end

section

/-! Port-0 input at the end of the stream, where EOF_POLICY decides (R99; decision D16, log 10). -/

namespace Sys2Proof.Machine

theorem charGet_of_ended_nil {env : Env} (hc : env.charInCond = .ended) (hi : env.charIn = []) :
    charGet env = .endOfStream := by
  unfold charGet
  rw [hc, hi]

/-- A policy that returns a value answers it at the end of the stream, in the same state. -/
theorem port0In_of_endOfStream_returns {s : State} {v : Word} (hend : charGet s.env = .endOfStream)
    (hpolicy : s.cfg.eofPolicy = .returns v) : port0In s = .done v s := by
  simp only [port0In, hend, hpolicy]

/-- A policy that waits has no answer at the end of the stream. -/
theorem port0In_of_endOfStream_waits {s : State} (hend : charGet s.env = .endOfStream)
    (hpolicy : s.cfg.eofPolicy = .waits) : port0In s = .waits := by
  simp only [port0In, hend, hpolicy]

/-- Settles O23: at the end of the stream port 0 answers what EOF_POLICY says; IN stores a returned value, and waits when
the port does. -/
theorem inAtEndOfStreamFollowsTheEofPolicy : Obligations.InAtEndOfStreamFollowsTheEofPolicy := by
  intro b s hb hc hi
  have hend : charGet s.env = .endOfStream := charGet_of_ended_nil hc hi
  refine ⟨fun v hpolicy => ?_, fun hpolicy => ?_⟩
  · have hport : portIn 0 s = .done v s := (portIn_zero s).trans (port0In_of_endOfStream_returns hend hpolicy)
    obtain ⟨t, hexec, hcore, hio, henv, hdraws⟩ := exec_input_of_done hb hport
    exact ⟨t, hexec, hcore, henv, hio, hdraws⟩
  · have hport : portIn 0 s = .waits := (portIn_zero s).trans (port0In_of_endOfStream_waits hend hpolicy)
    exact execInput_of_waits hb hport

end Sys2Proof.Machine
end
